-- ==== Sys2Proof/Word.lean ====
section
/-! DEFINITION. The widths of the machine (00_scope.md R7, R10): bytes, 16-bit words, 12-bit address immediates, and the
index of one of sixteen registers. -/

namespace Sys2Proof

/-- An 8-bit value: a general register, a timer, a byte of memory. -/
abbrev Byte := BitVec 8

/-- A 16-bit value: an instruction word, the index register, the program counter, a stack entry. -/
abbrev Word := BitVec 16

/-- The 12-bit address immediate NNN (30_encoding.md R94). -/
abbrev Imm12 := BitVec 12

/-- The index of one of sixteen like things: a general register V0..VF (10_state.md R21), a key slot (10_state.md R34). -/
abbrev Idx := Fin 16

end Sys2Proof
end

