-- ==== Sys2Proof/Machine/Flags.lean ====
section
/-! DEFINITION. The values written to the flag VF as a side effect (10_state.md R25). -/

namespace Sys2Proof.Machine

/-- 1 or 0. -/
def flagOf (b : Bool) : Byte := if b then 1 else 0

/-- ADD_VX_VY: 1 iff `a + b > 255` (40_arith_logic.md R126). -/
def carryFlag (a b : Byte) : Byte := flagOf (a.toNat + b.toNat > 255)

/-- SUB_VX_VY: 1 iff `a > b`, strictly (40_arith_logic.md R127; 90_conflicts.md C1). -/
def subFlag (a b : Byte) : Byte := flagOf (a.toNat > b.toNat)

/-- SUBN_VX_VY: 1 iff `a < b`, strictly (40_arith_logic.md R129; 90_conflicts.md C2). -/
def subnFlag (a b : Byte) : Byte := flagOf (a.toNat < b.toNat)

/-- SHR_VX: the bit shifted out, 0 or 1 (40_arith_logic.md R128). -/
def shrFlag (a : Byte) : Byte := a &&& 0x01

/-- SHL_VX: the raw masked bit, 0x00 or 0x80, not 0 or 1 (40_arith_logic.md R130; 90_conflicts.md C16). -/
def shlFlag (a : Byte) : Byte := a &&& 0x80

/-- DRAW_VX_VY_N: 1 if any pixel went from on to off (44_display.md R193). -/
def hitFlag (hit : Bool) : Byte := flagOf hit

end Sys2Proof.Machine
end

