-- ==== Sys2Proof/Syntax.lean ====
section
/-! DEFINITION. The 35 instructions, one constructor per row of spec/opcode_table.json, in its order (30_encoding.md R98).
Fields are named as R94 names them: x, y register indices, n a row count, kk a byte, nnn an address immediate. -/

namespace Sys2Proof

/-- An instruction. SHR_VX and SHL_VX keep their Y field, which takes no part in their meaning (30_encoding.md R102). -/
inductive Instr where
  /-- `00E0` CLS -/
  | cls
  /-- `00EE` RET -/
  | ret
  /-- `0nnn` SYS_NNN, every word of this form but `00E0` and `00EE` -/
  | sysNnn (nnn : Imm12)
  /-- `1nnn` JMP_NNN -/
  | jmpNnn (nnn : Imm12)
  /-- `2nnn` CALL_NNN -/
  | callNnn (nnn : Imm12)
  /-- `3xkk` SE_VX_KK -/
  | seVxKk (x : Idx) (kk : Byte)
  /-- `4xkk` SNE_VX_KK -/
  | sneVxKk (x : Idx) (kk : Byte)
  /-- `5xy0` SE_VX_VY -/
  | seVxVy (x y : Idx)
  /-- `6xkk` LD_VX_KK -/
  | ldVxKk (x : Idx) (kk : Byte)
  /-- `7xkk` ADD_VX_KK -/
  | addVxKk (x : Idx) (kk : Byte)
  /-- `8xy0` LD_VX_VY -/
  | ldVxVy (x y : Idx)
  /-- `8xy1` OR_VX_VY -/
  | orVxVy (x y : Idx)
  /-- `8xy2` AND_VX_VY -/
  | andVxVy (x y : Idx)
  /-- `8xy3` XOR_VX_VY -/
  | xorVxVy (x y : Idx)
  /-- `8xy4` ADD_VX_VY -/
  | addVxVy (x y : Idx)
  /-- `8xy5` SUB_VX_VY -/
  | subVxVy (x y : Idx)
  /-- `8xy6` SHR_VX -/
  | shrVx (x y : Idx)
  /-- `8xy7` SUBN_VX_VY -/
  | subnVxVy (x y : Idx)
  /-- `8xyE` SHL_VX -/
  | shlVx (x y : Idx)
  /-- `9xy0` SNE_VX_VY -/
  | sneVxVy (x y : Idx)
  /-- `Annn` LD_I_NNN -/
  | ldINnn (nnn : Imm12)
  /-- `Bnnn` JMP_V0_NNN -/
  | jmpV0Nnn (nnn : Imm12)
  /-- `Cxkk` RND_VX_KK -/
  | rndVxKk (x : Idx) (kk : Byte)
  /-- `Dxyn` DRAW_VX_VY_N -/
  | drawVxVyN (x y : Idx) (n : Fin 16)
  /-- `Ex9E` SKP_VX -/
  | skpVx (x : Idx)
  /-- `ExA1` SKNP_VX -/
  | sknpVx (x : Idx)
  /-- `Fx07` LD_VX_DT -/
  | ldVxDt (x : Idx)
  /-- `Fx0A` LD_VX_K -/
  | ldVxK (x : Idx)
  /-- `Fx15` LD_DT_VX -/
  | ldDtVx (x : Idx)
  /-- `Fx18` LD_ST_VX -/
  | ldStVx (x : Idx)
  /-- `Fx1E` ADD_I_VX -/
  | addIVx (x : Idx)
  /-- `Fx29` LD_F_VX -/
  | ldFVx (x : Idx)
  /-- `Fx33` LD_B_VX -/
  | ldBVx (x : Idx)
  /-- `Fx55` LD_IMEM_VX -/
  | ldImemVx (x : Idx)
  /-- `Fx65` LD_VX_IMEM -/
  | ldVxImem (x : Idx)
  deriving DecidableEq, Repr

end Sys2Proof
end

