-- ==== Sys2Proof/WellFormed.lean ====
section
/-! DEFINITION. Which instructions have an encoding. The ranges of all fields are in their types; what is left is that the
two words `00E0` and `00EE` are CLS and RET and not SYS_NNN (41_control_flow.md R140, 30_encoding.md R97, R101). -/

namespace Sys2Proof

/-- The instruction is the meaning of some word: SYS_NNN is `0nnn` "except `00E0` and `00EE`" (R140). -/
def Instr.wellFormed : Instr → Bool
  | .sysNnn nnn => nnn != 0x0E0 && nnn != 0x0EE
  | .cls | .ret | .jmpNnn _ | .callNnn _ | .seVxKk _ _ | .sneVxKk _ _ | .seVxVy _ _ | .ldVxKk _ _ | .addVxKk _ _
  | .ldVxVy _ _ | .orVxVy _ _ | .andVxVy _ _ | .xorVxVy _ _ | .addVxVy _ _ | .subVxVy _ _ | .shrVx _ _
  | .subnVxVy _ _ | .shlVx _ _ | .sneVxVy _ _ | .ldINnn _ | .jmpV0Nnn _ | .rndVxKk _ _ | .drawVxVyN _ _ _
  | .skpVx _ | .sknpVx _ | .ldVxDt _ | .ldVxK _ | .ldDtVx _ | .ldStVx _ | .addIVx _ | .ldFVx _ | .ldBVx _
  | .ldImemVx _ | .ldVxImem _ => true

end Sys2Proof
end

