-- ==== Sys2Proof/Decode.lean ====
section
/-! DEFINITION. The decoder, first match over a table of descriptors (30_encoding.md R93, R94, R96, R98), and after it the
encoder, written from the same table. UNVERIFIED (log entry 7): the bit patterns are the spec's from general knowledge (D1). -/

namespace Sys2Proof

/-- R94: a field is `(op & mask) >> shift`. -/
def extractField (mask : Word) (shift : Nat) (op : Word) : Nat := ((op &&& mask) >>> shift).toNat

/-- Field X: mask 0x0F00, shift 8 (R94). -/
def fieldX (op : Word) : Idx := Fin.ofNat 16 (extractField 0x0F00 8 op)

/-- Field Y: mask 0x00F0, shift 4 (R94). -/
def fieldY (op : Word) : Idx := Fin.ofNat 16 (extractField 0x00F0 4 op)

/-- Field N: mask 0x000F, shift 0 (R94). -/
def fieldN (op : Word) : Fin 16 := Fin.ofNat 16 (extractField 0x000F 0 op)

/-- Field KK: mask 0x00FF, shift 0 (R94). -/
def fieldKK (op : Word) : Byte := BitVec.ofNat 8 (extractField 0x00FF 0 op)

/-- Field NNN: mask 0x0FFF, shift 0 (R94). -/
def fieldNNN (op : Word) : Imm12 := BitVec.ofNat 12 (extractField 0x0FFF 0 op)

/-- One row of the opcode table (R93): a mask, a pattern, and the instruction its extraction rules make of a word. -/
structure Descriptor where
  mask : Word
  pattern : Word
  build : Word → Instr

/-- R96: `(opcode & mask) == pattern`. -/
def Descriptor.isMatch (d : Descriptor) (op : Word) : Bool := op &&& d.mask == d.pattern

/-- Rows 1 to 10 of R98. -/
def descriptors1 : List Descriptor :=
  [ ⟨0xFFFF, 0x00E0, fun _ => .cls⟩,
    ⟨0xFFFF, 0x00EE, fun _ => .ret⟩,
    ⟨0xF000, 0x0000, fun op => .sysNnn (fieldNNN op)⟩,
    ⟨0xF000, 0x1000, fun op => .jmpNnn (fieldNNN op)⟩,
    ⟨0xF000, 0x2000, fun op => .callNnn (fieldNNN op)⟩,
    ⟨0xF000, 0x3000, fun op => .seVxKk (fieldX op) (fieldKK op)⟩,
    ⟨0xF000, 0x4000, fun op => .sneVxKk (fieldX op) (fieldKK op)⟩,
    ⟨0xF00F, 0x5000, fun op => .seVxVy (fieldX op) (fieldY op)⟩,
    ⟨0xF000, 0x6000, fun op => .ldVxKk (fieldX op) (fieldKK op)⟩,
    ⟨0xF000, 0x7000, fun op => .addVxKk (fieldX op) (fieldKK op)⟩ ]

/-- Rows 11 to 24 of R98. -/
def descriptors2 : List Descriptor :=
  [ ⟨0xF00F, 0x8000, fun op => .ldVxVy (fieldX op) (fieldY op)⟩,
    ⟨0xF00F, 0x8001, fun op => .orVxVy (fieldX op) (fieldY op)⟩,
    ⟨0xF00F, 0x8002, fun op => .andVxVy (fieldX op) (fieldY op)⟩,
    ⟨0xF00F, 0x8003, fun op => .xorVxVy (fieldX op) (fieldY op)⟩,
    ⟨0xF00F, 0x8004, fun op => .addVxVy (fieldX op) (fieldY op)⟩,
    ⟨0xF00F, 0x8005, fun op => .subVxVy (fieldX op) (fieldY op)⟩,
    ⟨0xF00F, 0x8006, fun op => .shrVx (fieldX op) (fieldY op)⟩,
    ⟨0xF00F, 0x8007, fun op => .subnVxVy (fieldX op) (fieldY op)⟩,
    ⟨0xF00F, 0x800E, fun op => .shlVx (fieldX op) (fieldY op)⟩,
    ⟨0xF00F, 0x9000, fun op => .sneVxVy (fieldX op) (fieldY op)⟩,
    ⟨0xF000, 0xA000, fun op => .ldINnn (fieldNNN op)⟩,
    ⟨0xF000, 0xB000, fun op => .jmpV0Nnn (fieldNNN op)⟩,
    ⟨0xF000, 0xC000, fun op => .rndVxKk (fieldX op) (fieldKK op)⟩,
    ⟨0xF000, 0xD000, fun op => .drawVxVyN (fieldX op) (fieldY op) (fieldN op)⟩ ]

/-- Rows 25 to 35 of R98. -/
def descriptors3 : List Descriptor :=
  [ ⟨0xF0FF, 0xE09E, fun op => .skpVx (fieldX op)⟩,
    ⟨0xF0FF, 0xE0A1, fun op => .sknpVx (fieldX op)⟩,
    ⟨0xF0FF, 0xF007, fun op => .ldVxDt (fieldX op)⟩,
    ⟨0xF0FF, 0xF00A, fun op => .ldVxK (fieldX op)⟩,
    ⟨0xF0FF, 0xF015, fun op => .ldDtVx (fieldX op)⟩,
    ⟨0xF0FF, 0xF018, fun op => .ldStVx (fieldX op)⟩,
    ⟨0xF0FF, 0xF01E, fun op => .addIVx (fieldX op)⟩,
    ⟨0xF0FF, 0xF029, fun op => .ldFVx (fieldX op)⟩,
    ⟨0xF0FF, 0xF033, fun op => .ldBVx (fieldX op)⟩,
    ⟨0xF0FF, 0xF055, fun op => .ldImemVx (fieldX op)⟩,
    ⟨0xF0FF, 0xF065, fun op => .ldVxImem (fieldX op)⟩ ]

/-- The 35 descriptors in decode order (R98). -/
def descriptors : List Descriptor := descriptors1 ++ descriptors2 ++ descriptors3

/-- R96: the first descriptor in table order that matches selects the instruction; `none` is the verdict "unrecognized". -/
def decodeWord (op : Word) : Option Instr := (descriptors.find? (·.isMatch op)).map (·.build op)

/-- Why bytes do not decode. -/
inductive DecodeError where
  /-- fewer than two bytes (30_encoding.md R91: every instruction is exactly two) -/
  | truncated
  /-- no descriptor matches the word (R96, R100) -/
  | unrecognizedOpcode (op : Word)
  deriving DecidableEq, Repr

/-- The outcome of decoding a byte sequence: an instruction with the bytes after it, or a rejection by name. -/
inductive DecodeResult where
  | ok (i : Instr) (rest : List Byte)
  | error (e : DecodeError)
  deriving DecidableEq, Repr

/-- The word two bytes make, big-endian (20_memory.md R62): the first byte supplies bits 15..8. -/
def joinBytes (hi lo : Byte) : Word := hi ++ lo

/-- The byte at the lower address: bits 15..8 (R62). -/
def hiByte (w : Word) : Byte := w.extractLsb' 8 8

/-- The byte at the higher address: bits 7..0 (R62). -/
def loByte (w : Word) : Byte := w.extractLsb' 0 8

/-- Decode one instruction from the front of any byte sequence. -/
def decode : List Byte → DecodeResult
  | hi :: lo :: rest =>
    match decodeWord (joinBytes hi lo) with
    | some i => .ok i rest
    | none => .error (.unrecognizedOpcode (joinBytes hi lo))
  | [_] => .error .truncated
  | [] => .error .truncated

/-- X in its place, bits 11..8 (R92). -/
def placeX (x : Idx) : Word := BitVec.ofNat 16 x.val <<< 8

/-- Y in its place, bits 7..4 (R92). -/
def placeY (y : Idx) : Word := BitVec.ofNat 16 y.val <<< 4

/-- N in its place, bits 3..0 (R92). -/
def placeN (n : Fin 16) : Word := BitVec.ofNat 16 n.val

/-- KK in its place, bits 7..0 (R92). -/
def placeKK (kk : Byte) : Word := kk.setWidth 16

/-- NNN in its place, bits 11..0 (R92). -/
def placeNNN (nnn : Imm12) : Word := nnn.setWidth 16

/-- The word of an instruction: its pattern (R98) with its fields in their places (R92). -/
def encodeWord : Instr → Word
  | .cls => 0x00E0
  | .ret => 0x00EE
  | .sysNnn nnn => 0x0000 ||| placeNNN nnn
  | .jmpNnn nnn => 0x1000 ||| placeNNN nnn
  | .callNnn nnn => 0x2000 ||| placeNNN nnn
  | .seVxKk x kk => 0x3000 ||| placeX x ||| placeKK kk
  | .sneVxKk x kk => 0x4000 ||| placeX x ||| placeKK kk
  | .seVxVy x y => 0x5000 ||| placeX x ||| placeY y
  | .ldVxKk x kk => 0x6000 ||| placeX x ||| placeKK kk
  | .addVxKk x kk => 0x7000 ||| placeX x ||| placeKK kk
  | .ldVxVy x y => 0x8000 ||| placeX x ||| placeY y
  | .orVxVy x y => 0x8001 ||| placeX x ||| placeY y
  | .andVxVy x y => 0x8002 ||| placeX x ||| placeY y
  | .xorVxVy x y => 0x8003 ||| placeX x ||| placeY y
  | .addVxVy x y => 0x8004 ||| placeX x ||| placeY y
  | .subVxVy x y => 0x8005 ||| placeX x ||| placeY y
  | .shrVx x y => 0x8006 ||| placeX x ||| placeY y
  | .subnVxVy x y => 0x8007 ||| placeX x ||| placeY y
  | .shlVx x y => 0x800E ||| placeX x ||| placeY y
  | .sneVxVy x y => 0x9000 ||| placeX x ||| placeY y
  | .ldINnn nnn => 0xA000 ||| placeNNN nnn
  | .jmpV0Nnn nnn => 0xB000 ||| placeNNN nnn
  | .rndVxKk x kk => 0xC000 ||| placeX x ||| placeKK kk
  | .drawVxVyN x y n => 0xD000 ||| placeX x ||| placeY y ||| placeN n
  | .skpVx x => 0xE09E ||| placeX x
  | .sknpVx x => 0xE0A1 ||| placeX x
  | .ldVxDt x => 0xF007 ||| placeX x
  | .ldVxK x => 0xF00A ||| placeX x
  | .ldDtVx x => 0xF015 ||| placeX x
  | .ldStVx x => 0xF018 ||| placeX x
  | .addIVx x => 0xF01E ||| placeX x
  | .ldFVx x => 0xF029 ||| placeX x
  | .ldBVx x => 0xF033 ||| placeX x
  | .ldImemVx x => 0xF055 ||| placeX x
  | .ldVxImem x => 0xF065 ||| placeX x

/-- The two bytes of an instruction as memory holds them, high byte first (R62, R91). -/
def encode (i : Instr) : List Byte := [hiByte (encodeWord i), loByte (encodeWord i)]

/-- The word of a table row: bits 15..0 of `w`, those above `nbits` being 0. -/
def tableWord (nbits w : Nat) : Word := BitVec.ofNat 16 (w % 2 ^ nbits)

/-- The instruction the decoder reads from the bytes of a table word, laid out as memory holds them. -/
def decodeTableWord (nbits w : Nat) : Option Instr :=
  match decode [hiByte (tableWord nbits w), loByte (tableWord nbits w)] with
  | .ok i _ => some i
  | .error _ => none

end Sys2Proof
end

