-- ==== Sys2Proof/Config.lean ====
section
/-! DEFINITION. What is fixed for the machine (00_scope.md R7, R8), and its one free value (40_arith_logic.md R131). -/

namespace Sys2Proof

/-- `MEM_SIZE` (R7): bytes of memory, at addresses 0..4095. -/
abbrev Config.memSize : Nat := 4096

/-- `PROG_BASE` (R7): the load address of a program and the pc after a load. -/
abbrev Config.progBase : Nat := 0x200

/-- `MAX_PROG` (R7): the longest program `load_program` accepts. -/
abbrev Config.maxProg : Nat := 3584

/-- `GLYPH_BYTES` (R7): bytes per font glyph, the factor of LD_F_VX (42_index_memory.md R164). -/
abbrev Config.glyphBytes : Nat := 5

/-- `FONT` (20_memory.md R66): the 80 glyph bytes, digits 0 to F, five a glyph, at addresses 0..79.
UNVERIFIED (log entry 6): the spec takes them from general knowledge (D3), not from its source. -/
def Config.font : List Byte :=
  [0xF0, 0x90, 0x90, 0x90, 0xF0] ++ [0x20, 0x60, 0x20, 0x20, 0x70] ++
  [0xF0, 0x10, 0xF0, 0x80, 0xF0] ++ [0xF0, 0x10, 0xF0, 0x10, 0xF0] ++
  [0x90, 0x90, 0xF0, 0x10, 0x10] ++ [0xF0, 0x80, 0xF0, 0x10, 0xF0] ++
  [0xF0, 0x80, 0xF0, 0x90, 0xF0] ++ [0xF0, 0x10, 0x20, 0x40, 0x40] ++
  [0xF0, 0x90, 0xF0, 0x90, 0xF0] ++ [0xF0, 0x90, 0xF0, 0x10, 0xF0] ++
  [0xF0, 0x90, 0xF0, 0x90, 0x90] ++ [0xE0, 0x90, 0xE0, 0x90, 0xE0] ++
  [0xF0, 0x80, 0x80, 0x80, 0xF0] ++ [0xE0, 0x90, 0x90, 0x90, 0xE0] ++
  [0xF0, 0x80, 0xF0, 0x80, 0xF0] ++ [0xF0, 0x80, 0xF0, 0x80, 0x80]

/-- The random bytes (R131: "uniformly random", no generator named; D21, U15): a FREE VALUE, one for each draw, with no
body, so that no proof can see any of them. RND_VX_KK applies it to the counter `State.draws` (log entry 5). -/
opaque Config.freeByte : Nat → Byte

end Sys2Proof
end

