-- ==== Sys2Proof/Machine/State.lean ====
section
/-! DEFINITION. The state of the machine as plain data (10_state.md R20), the reasons a step can stop, the moves of the three
agents (00_scope.md R14), and the state after reset (70_reset_and_hazards.md R262, R266). -/

namespace Sys2Proof.Machine

/-- The kind of a faulting memory access (60_exceptions.md R221, fault 4). -/
inductive AccessKind where
  | fetch
  | read
  | write
  deriving DecidableEq, Repr

/-- The six faults of 60_exceptions.md R221 with the information each records. A step that raises one TAKES it: the next state
holds it in the latch `State.fault` (R228). No step ends in `Host.Outcome.fault` (log entry 4), which is safe. -/
inductive Fault where
  /-- code 1: raised by decode in any CPU step, with the raw word (R222). Latched; safe. -/
  | unrecognizedOpcode (op : Word)
  /-- code 2: raised by CALL_NNN when `SP = 16` (R223). Latched; safe. -/
  | stackOverflow
  /-- code 3: raised by RET when `SP = 0` (R224). Latched; safe. -/
  | stackUnderflow
  /-- code 4: raised by the fetch, LD_B_VX, LD_IMEM_VX, LD_VX_IMEM and DRAW_VX_VY_N, with the lowest offending address and the
  kind of access (R225). Latched; safe. -/
  | addressFault (addr : Nat) (kind : AccessKind)
  /-- code 5: raised by every SYS_NNN, with the raw word (R226). Latched; safe. -/
  | sysUnsupported (op : Word)
  /-- code 6: raised by SKP_VX and SKNP_VX when the register holds a value above 15, with that value (R227). Latched; safe. -/
  | keyIndexRange (v : Byte)
  deriving DecidableEq, Repr

/-- Reasons to give an instruction no meaning. -/
inductive Refusal where
  /-- an instruction without a meaning in this model, by its mnemonic: no arm of `exec` answers it now. Safe: it stops. -/
  | notModelled (mnemonic : String)
  deriving DecidableEq, Repr

/-- The run state RUN (10_state.md R36, 60_exceptions.md R240). -/
inductive RunState where
  | stopped
  | running
  | exit
  deriving DecidableEq, Repr

/-- The framebuffer: 32 rows from the top, each of 64 pixels from the left, `true` for on (10_state.md R35). -/
abbrev Framebuffer := Vector (Vector Bool 64) 32

/-- Memory as the cells that differ from the reset contents, addresses strictly rising (log entry 3). -/
abbrev Memory := List Host.Cell

/-- One entry of the output log OUT (10_state.md R41). -/
inductive OutEvent where
  /-- emitted by CLS and DRAW_VX_VY_N, with the framebuffer after the instruction (44_display.md R199) -/
  | frameReady (snapshot : Framebuffer)
  /-- a `load_program` longer than 3584 bytes was rejected (70_reset_and_hazards.md R264) -/
  | loadError
  deriving DecidableEq, Repr

/-- One atomic transition of one agent (00_scope.md R14, 10_state.md R40). Key indices are in 0..15 by their type: "a model
has no such move" (60_exceptions.md R246). -/
inductive Move where
  /-- the CPU's fetch-decode-execute step (30_encoding.md R90) -/
  | cpu
  /-- the 60 Hz timer event (43_timers.md R180) -/
  | tick
  /-- the host presses key `k` (45_keys.md R208) -/
  | keyPressed (k : Idx)
  /-- the host releases key `k` (45_keys.md R209) -/
  | keyReleased (k : Idx)
  /-- the host resizes the presentation surface (44_display.md R200) -/
  | resize (width height : Nat)
  /-- the host asks for exit (60_exceptions.md R243) -/
  | requestExit
  /-- the host loads a program (70_reset_and_hazards.md R262) -/
  | loadProgram (bytes : List Byte)
  deriving DecidableEq, Repr

/-- The complete architectural state (10_state.md R20), and two fields of the model's own at the end. -/
structure State where
  /-- MEM[0..4095] (20_memory.md R60) -/
  mem : Memory
  /-- V0..VF; `v[15]` is VF (R21, R24) -/
  v : Vector Byte 16
  /-- the index register I (R31) -/
  i : Word
  /-- the program counter (R28) -/
  pc : Word
  /-- SP, the number of live stack entries, 0..16 (R32) -/
  sp : Fin 17
  /-- STACK[0..15] (R32) -/
  stack : Vector Word 16
  /-- the delay timer DT (R33) -/
  dt : Byte
  /-- the sound timer ST (R33) -/
  st : Byte
  /-- KEY[0..15], `true` for pressed and not yet consumed (R34) -/
  key : Vector Bool 16
  /-- the framebuffer FB (R35) -/
  fb : Framebuffer
  /-- the run state RUN (R36) -/
  run : RunState
  /-- the fault latch FAULT (R37) -/
  fault : Option Fault
  /-- the output event log OUT, oldest first (R20, R41) -/
  out : List OutEvent
  /-- the model's own: the agents' moves still to come, oldest first; when it is empty the CPU moves (log entry 2) -/
  schedule : List Move
  /-- the model's own: how many random bytes have been drawn, which indexes `Config.freeByte` (log entry 5) -/
  draws : Nat
  deriving DecidableEq, Repr

/-- The framebuffer with every pixel off. -/
def blankScreen : Framebuffer := Vector.replicate 32 (Vector.replicate 64 false)

/-- Every key slot released. -/
def noKeys : Vector Bool 16 := Vector.replicate 16 false

/-- Power-on (70_reset_and_hazards.md R260): Stopped, no fault, no key, blank screen, empty log. The registers and memory are
unspecified and unobservable, so they are those of any state whatever (log entry 8). -/
def State.powerOn (before : State) : State :=
  { before with run := .stopped, fault := none, key := noKeys, fb := blankScreen, out := [] }

/-- The machine right after reset: "the reset performed by `load_program`" (10_state.md, R261, R262, R266), of a program of
length 0 (R265), from power-on. Memory lists nothing: an unlisted address reads as the reset contents (log entries 1 and 3). -/
def State.reset : State where
  mem := []
  v := Vector.replicate 16 0
  i := 0
  pc := 0x200
  sp := 0
  stack := Vector.replicate 16 0
  dt := 0
  st := 0
  key := noKeys
  fb := blankScreen
  run := .running
  fault := none
  out := []
  schedule := []
  draws := 0

end Sys2Proof.Machine
end

