-- ==== Sys2Proof/Machine/Ops.lean ====
section
/-! DEFINITION. The named operations over memory, registers, the stack, the framebuffer, the key slots and the output log;
the fetch; and taking a fault (60_exceptions.md R228). -/

namespace Sys2Proof.Machine

/-- What a step or an instruction answers. -/
abbrev Result := Host.Outcome State Fault Refusal

/-! ## Writing one field -/

/-- MEM <- m. -/
def setMem (m : Memory) (s : State) : State := { s with mem := m }

/-- I <- a. -/
def setI (a : Word) (s : State) : State := { s with i := a }

/-- pc <- a. -/
def setPc (a : Word) (s : State) : State := { s with pc := a }

/-- SP <- n. -/
def setSp (n : Fin 17) (s : State) : State := { s with sp := n }

/-- STACK[k] <- a. -/
def setStack (k : Idx) (a : Word) (s : State) : State := { s with stack := s.stack.set k.val a k.isLt }

/-- DT <- b. -/
def setDt (b : Byte) (s : State) : State := { s with dt := b }

/-- ST <- b. -/
def setSt (b : Byte) (s : State) : State := { s with st := b }

/-- FB <- f. -/
def setScreen (f : Framebuffer) (s : State) : State := { s with fb := f }

/-- RUN <- r. -/
def setRun (r : RunState) (s : State) : State := { s with run := r }

/-- FAULT <- f. -/
def latch (f : Fault) (s : State) : State := { s with fault := some f }

/-- Append one event to OUT. -/
def emit (e : OutEvent) (s : State) : State := { s with out := s.out ++ [e] }

/-- Replace the moves still to come. -/
def setSchedule (ms : List Move) (s : State) : State := { s with schedule := ms }

/-! ## Memory -/

/-- What an unlisted address reads as: the contents after a load of no program (20_memory.md R65): the font at 0x000..0x04F,
zero everywhere else. -/
def unlistedByte (a : Nat) : Byte := Config.font.getD a 0

/-- MEM[a] (20_memory.md R68), for an address the caller has checked. -/
def Memory.read : Memory → Nat → Byte
  | [], a => unlistedByte a
  | (b, w) :: m, a => if a = b then w else Memory.read m a

/-- Put a cell in front, unless it holds what the unlisted address reads as. -/
def Memory.consCell (a : Nat) (v : Byte) (m : Memory) : Memory := if v = unlistedByte a then m else (a, v) :: m

/-- MEM[a] <- v (20_memory.md R69), for an address the caller has checked; the list stays in its canonical form. -/
def Memory.write : Memory → Nat → Byte → Memory
  | [], a, v => Memory.consCell a v []
  | (b, w) :: m, a, v =>
    if a < b then Memory.consCell a v ((b, w) :: m)
    else if a = b then Memory.consCell a v m
    else (b, w) :: Memory.write m a v

/-- The bytes `vs` to ascending addresses from `a` on (20_memory.md R63). -/
def Memory.writeBytes (m : Memory) (a : Nat) : List Byte → Memory
  | [] => m
  | v :: vs => Memory.writeBytes (Memory.write m a v) (a + 1) vs

/-- The `n` bytes at ascending addresses from `a` on (20_memory.md R63). -/
def Memory.readBytes (m : Memory) (a : Nat) : Nat → List Byte
  | 0 => []
  | n + 1 => Memory.read m a :: Memory.readBytes m (a + 1) n

/-- The cells from address `lo` on are in canonical form: addresses rising and below 4096, no cell equal to what its address
reads as unlisted. -/
def Memory.wfFrom : Nat → Memory → Bool
  | _, [] => true
  | lo, (a, v) :: m => lo ≤ a && a < Config.memSize && v != unlistedByte a && Memory.wfFrom (a + 1) m

/-- The canonical form of memory. -/
def Memory.wf (m : Memory) : Bool := Memory.wfFrom 0 m

/-! ## Taking a fault -/

/-- Fault entry (60_exceptions.md R228): FAULT is set, nothing else changes; pc stays at the faulting instruction. -/
def raise (f : Fault) (s : State) : Result := .next (latch f s)

/-- The numeric code of a fault (60_exceptions.md R221). -/
def faultCode : Fault → Nat
  | .unrecognizedOpcode _ => 1
  | .stackOverflow => 2
  | .stackUnderflow => 3
  | .addressFault _ _ => 4
  | .sysUnsupported _ => 5
  | .keyIndexRange _ => 6

/-- The `len` addresses from `base` on all exist: the highest is at most 4095 (42_index_memory.md R163). An empty range has
no address to check. -/
def rangeOk (base len : Nat) : Bool := len = 0 || base + len - 1 < Config.memSize

/-- The fault of a range that passes 4095: its lowest offending address, `max(base, 4096)` (R163, 60_exceptions.md R225). -/
def rangeFault (base : Nat) (kind : AccessKind) : Fault := .addressFault (max base Config.memSize) kind

/-- Check the whole range before anything changes (20_memory.md R71), and go on with `k` only if it all exists. -/
def guardRange (base len : Nat) (kind : AccessKind) (s : State) (k : Result) : Result :=
  if rangeOk base len then k else raise (rangeFault base kind) s

/-! ## Registers -/

/-- V[x] (10_state.md R21). -/
def getV (s : State) (x : Idx) : Byte := s.v.get x

/-- V[x] <- b. -/
def setV (x : Idx) (b : Byte) (s : State) : State := { s with v := s.v.set x.val b x.isLt }

/-- VF, which is V[15] (10_state.md R24). -/
def regF : Idx := 15

/-- Result to V[x], then flag to V[15] (10_state.md R27, 40_arith_logic.md R133): with x = 15 the flag remains. -/
def setVFlag (x : Idx) (result flag : Byte) (s : State) : State := setV regF flag (setV x result s)

/-- V[0..x] from the bytes at I, I + 1, ... ; the registers above x keep their values (42_index_memory.md R167). -/
def loadRegs (x : Idx) (s : State) : State :=
  { s with v := Vector.ofFn fun k : Fin 16 =>
      if k ≤ x then Memory.read s.mem (s.i.toNat + k.val) else s.v.get k }

/-- The contents of V[0..x], ascending: x + 1 bytes (42_index_memory.md R166). -/
def dumpBytes (x : Idx) (s : State) : List Byte := (s.v.toList).take (x.val + 1)

/-! ## The program counter -/

/-- Set pc and be done (41_control_flow.md R149). -/
def jumpTo (target : Word) (s : State) : Result := .next (setPc target s)

/-- The default advance, `pc <- pc + 2` (10_state.md R29). -/
def advance (s : State) : Result := jumpTo (s.pc + 2) s

/-- A skip: `pc + 4` when the condition holds, else `pc + 2` (41_control_flow.md R150). -/
def skipIf (cond : Bool) (s : State) : Result := jumpTo (if cond then s.pc + 4 else s.pc + 2) s

/-! ## The call stack -/

/-- Push a return address: `STACK[SP] <- a; SP <- SP + 1`, or StackOverflow when 16 are live (10_state.md R32, R143). -/
def pushCall (ret target : Word) (s : State) : Result :=
  if h : s.sp.val < 16 then
    .next (setPc target (setSp ⟨s.sp.val + 1, by omega⟩ (setStack ⟨s.sp.val, h⟩ ret s)))
  else raise .stackOverflow s

/-- Pop into pc: `SP <- SP - 1; pc <- STACK[SP]`, the entry left stale, or StackUnderflow when none is live (R32, R141). -/
def popReturn (s : State) : Result :=
  if h : s.sp.val = 0 then raise .stackUnderflow s
  else .next (setPc (s.stack.get ⟨s.sp.val - 1, by omega⟩) (setSp ⟨s.sp.val - 1, by omega⟩ s))

/-! ## The framebuffer and the output log -/

/-- FB[y][x] (10_state.md R35). -/
def getPixel (fb : Framebuffer) (y : Fin 32) (x : Fin 64) : Bool := (fb.get y).get x

/-- FB[y][x] <- FB[y][x] xor 1 (44_display.md R192). -/
def flipPixel (fb : Framebuffer) (y : Fin 32) (x : Fin 64) : Framebuffer :=
  fb.set y.val ((fb.get y).set x.val (!getPixel fb y x) x.isLt) y.isLt

/-- `emit frame_ready`: one event with the framebuffer as it is now, at the end of the log (44_display.md R199). -/
def emitFrame (s : State) : State := emit (.frameReady s.fb) s

/-! ## The key slots -/

/-- The atomic read of one slot (45_keys.md R210). -/
def getKey (s : State) (k : Idx) : Bool := s.key.get k

/-- The atomic set or clear of one slot (45_keys.md R208, R209). -/
def setKey (k : Idx) (b : Bool) (s : State) : State := { s with key := s.key.set k.val b k.isLt }

/-- Test-and-clear of one slot: its value, and the state with the slot 0 (45_keys.md R210). -/
def testAndClear (k : Idx) (s : State) : Bool × State := (getKey s k, setKey k false s)

/-- The sixteen slots, lowest first. -/
def allKeys : List Idx := [0, 1, 2, 3, 4, 5, 6, 7, 8, 9, 10, 11, 12, 13, 14, 15]

/-- The lowest pressed key, if any (45_keys.md R207). -/
def lowestKey (s : State) : Option Idx := allKeys.find? (getKey s)

/-! ## The random byte -/

/-- Sample `rnd`: the next free byte, and the state with the draw counted (40_arith_logic.md R131, log entry 5). -/
def drawByte (s : State) : Byte × State := (Config.freeByte s.draws, { s with draws := s.draws + 1 })

/-! ## Fetch -/

/-- MemRead(a, 2), big-endian (20_memory.md R62). -/
def wordAt (m : Memory) (a : Nat) : Word := joinBytes (Memory.read m a) (Memory.read m (a + 1))

/-- The instruction word at pc, or the fetch's AddressFault (20_memory.md R67). -/
def fetch (s : State) : Except Fault Word :=
  if rangeOk s.pc.toNat 2 then .ok (wordAt s.mem s.pc.toNat) else .error (rangeFault s.pc.toNat .fetch)

/-- The CPU step and the tick are enabled: Running, and no fault latched (60_exceptions.md R242). -/
def State.enabled (s : State) : Bool := s.run = .running && s.fault = none

/-- The state with `w` stored big-endian where the CPU fetches next, and all that fetching it takes: Running, no fault, no
other move ahead, and pc back at 0x200 if it stands where no word can be (log entry 11). -/
def placeWord (w : Word) (s : State) : State :=
  let place : Word := if rangeOk s.pc.toNat 2 then s.pc else BitVec.ofNat 16 Config.progBase
  { s with
    mem := Memory.writeBytes s.mem place.toNat [hiByte w, loByte w]
    pc := place
    run := .running
    fault := none
    schedule := [] }

end Sys2Proof.Machine
end

