-- ==== Sys2Proof/Machine/Operands.lean ====
section
/-! DEFINITION. The operand forms: immediates as extracted (30_encoding.md R95), effective addresses (42_index_memory.md R160),
decimal digits (R165), and the key index in a register (45_keys.md R205). -/

namespace Sys2Proof.Machine

/-- NNN zero-extended to 16 bits (30_encoding.md R95). -/
def addrOf (nnn : Imm12) : Word := nnn.setWidth 16

/-- The whole word of a SYS_NNN, which the fault records (41_control_flow.md R140): bits 15..12 are 0. -/
def sysWord (nnn : Imm12) : Word := nnn.setWidth 16

/-- The target of JMP_V0_NNN: NNN + V[0], not masked to 12 bits (41_control_flow.md R148). -/
def indexedTarget (nnn : Imm12) (s : State) : Word := addrOf nnn + (getV s 0).setWidth 16

/-- The address of the first byte of a transfer: I, read before the instruction (42_index_memory.md R160). The k-th byte is at
`base s + k`, an unbounded natural number. -/
def base (s : State) : Nat := s.i.toNat

/-- I + V[x] modulo 65536 (42_index_memory.md R162). -/
def indexSum (x : Idx) (s : State) : Word := s.i + (getV s x).setWidth 16

/-- V[x] * 5, all eight bits of V[x] (42_index_memory.md R164). -/
def glyphAddr (x : Idx) (s : State) : Word := BitVec.ofNat 16 ((getV s x).toNat * Config.glyphBytes)

/-- The hundreds, tens and ones digits of a byte (42_index_memory.md R165). -/
def digitsOf (b : Byte) : List Byte :=
  [BitVec.ofNat 8 (b.toNat / 100), BitVec.ofNat 8 (b.toNat / 10 % 10), BitVec.ofNat 8 (b.toNat % 10)]

/-- The key a register names, or the KeyIndexRange fault when its value is above 15 (45_keys.md R205, R206). -/
def keyOperand (b : Byte) : Except Fault Idx :=
  if h : b.toNat < 16 then .ok ⟨b.toNat, h⟩ else .error (.keyIndexRange b)

/-- Go on with the slot that V[x] names, or raise the fault with nothing else changed. -/
def withKey (x : Idx) (s : State) (k : Bool → Result) : Result :=
  match keyOperand (getV s x) with
  | .ok j => k (getKey s j)
  | .error f => raise f s

/-- The sprite's left column: V[x] & 63 (44_display.md R194). -/
def originX (b : Byte) : Nat := (b &&& 63).toNat

/-- The sprite's top row: V[y] & 31 (44_display.md R194). -/
def originY (b : Byte) : Nat := (b &&& 31).toNat

end Sys2Proof.Machine
end

