-- ==== Sys2Proof/Machine/Arith.lean ====
section
/-! DEFINITION. Register load, arithmetic, logic, shift and random instructions (40_arith_logic.md). All operands are read from
the state before the instruction; arithmetic is 8-bit and wraps (R132). -/

namespace Sys2Proof.Machine

/-- LD_VX_KK: `V[X] <- KK` (R120). -/
def execLdVxKk (x : Idx) (kk : Byte) (s : State) : Result := advance (setV x kk s)

/-- ADD_VX_KK: `V[X] <- (V[X] + KK) mod 256`, no flag (R121). -/
def execAddVxKk (x : Idx) (kk : Byte) (s : State) : Result := advance (setV x (getV s x + kk) s)

/-- LD_VX_VY: `V[X] <- V[Y]` (R122). -/
def execLdVxVy (x y : Idx) (s : State) : Result := advance (setV x (getV s y) s)

/-- OR_VX_VY: bitwise, VF keeps its value (R123). -/
def execOrVxVy (x y : Idx) (s : State) : Result := advance (setV x (getV s x ||| getV s y) s)

/-- AND_VX_VY: bitwise, VF keeps its value (R124). -/
def execAndVxVy (x y : Idx) (s : State) : Result := advance (setV x (getV s x &&& getV s y) s)

/-- XOR_VX_VY: bitwise, VF keeps its value (R125). -/
def execXorVxVy (x y : Idx) (s : State) : Result := advance (setV x (getV s x ^^^ getV s y) s)

/-- ADD_VX_VY: the sum mod 256, VF = carry out (R126). -/
def execAddVxVy (x y : Idx) (s : State) : Result :=
  advance (setVFlag x (getV s x + getV s y) (carryFlag (getV s x) (getV s y)) s)

/-- SUB_VX_VY: VX - VY mod 256, VF = 1 iff VX > VY (R127). -/
def execSubVxVy (x y : Idx) (s : State) : Result :=
  advance (setVFlag x (getV s x - getV s y) (subFlag (getV s x) (getV s y)) s)

/-- SHR_VX: VX shifted right by one in place, VF = the bit shifted out; Y is ignored (R128, 30_encoding.md R102). -/
def execShrVx (x _y : Idx) (s : State) : Result := advance (setVFlag x (getV s x >>> 1) (shrFlag (getV s x)) s)

/-- SUBN_VX_VY: VY - VX mod 256, VF = 1 iff VX < VY (R129). -/
def execSubnVxVy (x y : Idx) (s : State) : Result :=
  advance (setVFlag x (getV s y - getV s x) (subnFlag (getV s x) (getV s y)) s)

/-- SHL_VX: VX shifted left by one in place, VF = VX & 0x80; Y is ignored (R130, 30_encoding.md R102). -/
def execShlVx (x _y : Idx) (s : State) : Result := advance (setVFlag x (getV s x <<< 1) (shlFlag (getV s x)) s)

/-- RND_VX_KK: `V[X] <- rnd & KK`, `rnd` free for each execution (R131). -/
def execRndVxKk (x : Idx) (kk : Byte) (s : State) : Result :=
  advance (setV x ((drawByte s).1 &&& kk) (drawByte s).2)

end Sys2Proof.Machine
end

