-- ==== Sys2Proof/Machine/Control.lean ====
section
/-! DEFINITION. Control transfer: SYS, jumps, call, return, skips (41_control_flow.md). A target is not validated when it is
computed (R149). -/

namespace Sys2Proof.Machine

/-- SYS_NNN: raises SysUnsupported with the whole word (R140). -/
def execSysNnn (nnn : Imm12) (s : State) : Result := raise (.sysUnsupported (sysWord nnn)) s

/-- RET: pops into pc directly, not pc + 2 (R141). -/
def execRet (s : State) : Result := popReturn s

/-- JMP_NNN: `pc <- NNN` (R142). -/
def execJmpNnn (nnn : Imm12) (s : State) : Result := jumpTo (addrOf nnn) s

/-- CALL_NNN: pushes pc + 2, then jumps (R143). -/
def execCallNnn (nnn : Imm12) (s : State) : Result := pushCall (s.pc + 2) (addrOf nnn) s

/-- SE_VX_KK (R144). -/
def execSeVxKk (x : Idx) (kk : Byte) (s : State) : Result := skipIf (getV s x == kk) s

/-- SNE_VX_KK (R145). -/
def execSneVxKk (x : Idx) (kk : Byte) (s : State) : Result := skipIf (getV s x != kk) s

/-- SE_VX_VY (R146). -/
def execSeVxVy (x y : Idx) (s : State) : Result := skipIf (getV s x == getV s y) s

/-- SNE_VX_VY (R147). -/
def execSneVxVy (x y : Idx) (s : State) : Result := skipIf (getV s x != getV s y) s

/-- JMP_V0_NNN: `pc <- NNN + V[0]` (R148). -/
def execJmpV0Nnn (nnn : Imm12) (s : State) : Result := jumpTo (indexedTarget nnn s) s

end Sys2Proof.Machine
end

