-- ==== Sys2Proof/Machine/Display.lean ====
section
/-! DEFINITION. The sprite renderer: CLS and DRAW_VX_VY_N (44_display.md). -/

namespace Sys2Proof.Machine

/-- CLS: every pixel off, `frame_ready` emitted (R190). -/
def execCls (s : State) : Result := advance (emitFrame (setScreen blankScreen s))

/-- The framebuffer as a draw goes on, and whether a pixel has gone from on to off in it (R193). -/
structure Canvas where
  fb : Framebuffer
  hit : Bool
  deriving DecidableEq, Repr

/-- Column offset `c` of sprite row `row` on framebuffer row `y` (R196): bit 7 - c of the row, at column `(x0 + c) & 63`. A
clear bit leaves the canvas alone; a set bit flips the pixel and notes an on-to-off flip (R192, R193). -/
def drawPixel (x0 : Nat) (y : Fin 32) (row : Byte) (cv : Canvas) (c : Nat) : Canvas :=
  if row.getLsbD (7 - c) then
    { fb := flipPixel cv.fb y (Fin.ofNat 64 (x0 + c)), hit := cv.hit || getPixel cv.fb y (Fin.ofNat 64 (x0 + c)) }
  else cv

/-- One sprite row at framebuffer row `y`, its eight columns from the left; a row beyond 31 is dropped (R194). -/
def drawRow (x0 y : Nat) (row : Byte) (cv : Canvas) : Canvas :=
  if h : y < 32 then [0, 1, 2, 3, 4, 5, 6, 7].foldl (drawPixel x0 ⟨y, h⟩ row) cv else cv

/-- The sprite's rows, downwards from framebuffer row `y` (R196). -/
def drawRows (x0 y : Nat) : List Byte → Canvas → Canvas
  | [], cv => cv
  | row :: rows, cv => drawRows x0 (y + 1) rows (drawRow x0 y row cv)

/-- The canvas after a whole draw: the N bytes at I, from the origin that V[X] and V[Y] give (R194, R196). -/
def blit (x y : Idx) (n : Nat) (s : State) : Canvas :=
  drawRows (originX (getV s x)) (originY (getV s y)) (Memory.readBytes s.mem (base s) n) ⟨s.fb, false⟩

/-- DRAW_VX_VY_N: the N bytes' range is checked first, clipped rows too; then the XOR blit, VF = collision, `frame_ready`
emitted (R196). -/
def execDrawVxVyN (x y : Idx) (n : Fin 16) (s : State) : Result :=
  guardRange (base s) n.val .read s
    (advance (emitFrame (setV regF (hitFlag (blit x y n.val s).hit) (setScreen (blit x y n.val s).fb s))))

end Sys2Proof.Machine
end

