-- ==== Sys2Proof/Machine/Index.lean ====
section
/-! DEFINITION. Index register, font, BCD, register dump and load (42_index_memory.md). Each transfer checks its whole range
first (R163) and leaves I unchanged (R165, R166, R167). -/

namespace Sys2Proof.Machine

/-- LD_I_NNN: `I <- NNN` (R161). -/
def execLdINnn (nnn : Imm12) (s : State) : Result := advance (setI (addrOf nnn) s)

/-- ADD_I_VX: `I <- (I + V[X]) mod 65536`, no flag (R162). -/
def execAddIVx (x : Idx) (s : State) : Result := advance (setI (indexSum x s) s)

/-- LD_F_VX: `I <- V[X] * 5` (R164). -/
def execLdFVx (x : Idx) (s : State) : Result := advance (setI (glyphAddr x s) s)

/-- LD_B_VX: the three decimal digits of V[X] to I, I + 1, I + 2 (R165). -/
def execLdBVx (x : Idx) (s : State) : Result :=
  guardRange (base s) 3 .write s (advance (setMem (Memory.writeBytes s.mem (base s) (digitsOf (getV s x))) s))

/-- LD_IMEM_VX: V[0..X] to I..I + X (R166). -/
def execLdImemVx (x : Idx) (s : State) : Result :=
  guardRange (base s) (x.val + 1) .write s (advance (setMem (Memory.writeBytes s.mem (base s) (dumpBytes x s)) s))

/-- LD_VX_IMEM: V[0..X] from I..I + X (R167). -/
def execLdVxImem (x : Idx) (s : State) : Result :=
  guardRange (base s) (x.val + 1) .read s (advance (loadRegs x s))

end Sys2Proof.Machine
end

