-- ==== Sys2Proof/Machine/Keys.lean ====
section
/-! DEFINITION. The key instructions (45_keys.md). -/

namespace Sys2Proof.Machine

/-- SKP_VX: skip if the key that V[X] names is pressed; the slot is not consumed (R205). -/
def execSkpVx (x : Idx) (s : State) : Result := withKey x s fun pressed => skipIf pressed s

/-- SKNP_VX: skip if the key that V[X] names is not pressed (R206). -/
def execSknpVx (x : Idx) (s : State) : Result := withKey x s fun pressed => skipIf (!pressed) s

/-- LD_VX_K: consume the lowest pressed key and store its index, or stall: nothing changes and pc still addresses this
instruction (R207). -/
def execLdVxK (x : Idx) (s : State) : Result :=
  match lowestKey s with
  | some k => advance (setV x (BitVec.ofNat 8 k.val) (testAndClear k s).2)
  | none => .next s

end Sys2Proof.Machine
end

