-- ==== Sys2Proof/Machine/Timers.lean ====
section
/-! DEFINITION. The timer instructions and the tick (43_timers.md). -/

namespace Sys2Proof.Machine

/-- LD_VX_DT: `V[X] <- DT` (R176). -/
def execLdVxDt (x : Idx) (s : State) : Result := advance (setV x s.dt s)

/-- LD_DT_VX: `DT <- V[X]` (R177). -/
def execLdDtVx (x : Idx) (s : State) : Result := advance (setDt (getV s x) s)

/-- LD_ST_VX: `ST <- V[X]` (R178). -/
def execLdStVx (x : Idx) (s : State) : Result := advance (setSt (getV s x) s)

/-- A timer after one tick: one less, never below zero (R179, R180). -/
def countDown (t : Byte) : Byte := if t = 0 then t else t - 1

/-- One tick, enabled only while Running and not faulted (R180); otherwise nothing changes. -/
def tick (s : State) : State := if s.enabled then setSt (countDown s.st) (setDt (countDown s.dt) s) else s

end Sys2Proof.Machine
end

