-- ==== Sys2Proof/Machine/Events.lean ====
section
/-! DEFINITION. The host's events and observations (10_state.md R40, R41; 60_exceptions.md R240..R246). Each is one atomic
transition (20_memory.md R72); after Exit none has an effect (R244). -/

namespace Sys2Proof.Machine

/-- Do nothing after Exit (60_exceptions.md R242, R244). -/
def unlessExit (s : State) (s' : State) : State := if s.run = .exit then s else s'

/-- `key_pressed(k)`: `KEY[k] <- 1` (45_keys.md R208). -/
def keyPressed (k : Idx) (s : State) : State := unlessExit s (setKey k true s)

/-- `key_released(k)`: `KEY[k] <- 0` (45_keys.md R209). -/
def keyReleased (k : Idx) (s : State) : State := unlessExit s (setKey k false s)

/-- `resize(width, height)`: the framebuffer is cleared and nothing else; the sizes are the presentation's (44_display.md
R200). No `frame_ready` (R199). -/
def resize (_width _height : Nat) (s : State) : State := unlessExit s (setScreen blankScreen s)

/-- `request_exit()`: `RUN <- Exit` from any state (60_exceptions.md R243). -/
def requestExit (s : State) : State := setRun .exit s

/-- The load proper (70_reset_and_hazards.md R262): everything a program can see is reset, the font installed, the bytes
copied to 0x200 and on, FAULT cleared, RUN Running; its two phases are one transition (60_exceptions.md R241). KEY and OUT are
left alone (R263), and so are the model's own fields. -/
def install (bytes : List Byte) (s : State) : State :=
  { s with
    mem := Memory.writeBytes [] Config.progBase bytes
    v := Vector.replicate 16 0
    i := 0
    pc := BitVec.ofNat 16 Config.progBase
    sp := 0
    stack := Vector.replicate 16 0
    dt := 0
    st := 0
    fb := blankScreen
    run := .running
    fault := none }

/-- `load_program(bytes)`: rejected with one `load_error` and no other change when longer than 3584 bytes (R264). -/
def loadProgram (bytes : List Byte) (s : State) : State :=
  unlessExit s (if bytes.length ≤ Config.maxProg then install bytes s else emit .loadError s)

/-- The host's read of the framebuffer, without side effect (44_display.md R201). -/
def hostFramebuffer (s : State) : Framebuffer := s.fb

/-- The host's read of RUN and FAULT, without side effect (60_exceptions.md R229). -/
def hostStatus (s : State) : RunState × Option Fault := (s.run, s.fault)

/-- The host's read of pc, the other diagnostic of a halted run (60_exceptions.md R250), without side effect.
DESIGN CHOICE (log entry 17), safe: a run is halted while a fault is latched (10_state.md R37: "the one fault that halted the
current run"), so pc is readable then, after Exit too, and in no other state; in particular not before the first load, where "no
host operation reads" it (70_reset_and_hazards.md R260). -/
def hostPc (s : State) : Option Word := if s.fault = none then none else some s.pc

end Sys2Proof.Machine
end

