-- ==== Sys2Proof/Machine/Cycle.lean ====
section
/-! DEFINITION. The CPU step (30_encoding.md R90) and one move of any agent (00_scope.md R14). -/

namespace Sys2Proof.Machine

/-- Decode a fetched word and execute it; a word no descriptor matches raises UnrecognizedOpcode (R90 steps 2 to 4, R222). -/
def runWord (op : Word) (s : State) : Result :=
  match decodeWord op with
  | some i => exec i s
  | none => raise (.unrecognizedOpcode op) s

/-- One CPU step: fetch, decode, execute, in that order of fault priority (60_exceptions.md R230). Where it is not enabled
(R242) nothing changes (log entry 9). -/
def cpuStep (s : State) : Result :=
  if s.enabled then
    match fetch s with
    | .ok op => runWord op s
    | .error f => raise f s
  else .next s

/-- One atomic transition of one agent. -/
def move (m : Move) (s : State) : Result :=
  match m with
  | .cpu => cpuStep s
  | .tick => .next (tick s)
  | .keyPressed k => .next (keyPressed k s)
  | .keyReleased k => .next (keyReleased k s)
  | .resize w h => .next (resize w h s)
  | .requestExit => .next (requestExit s)
  | .loadProgram bytes => .next (loadProgram bytes s)

/-- The next agent to move: the oldest move of the schedule, which is taken off it; the CPU when none is listed (log
entry 2). -/
def nextMove (s : State) : Move × State :=
  match s.schedule with
  | [] => (.cpu, s)
  | m :: rest => (m, setSchedule rest s)

end Sys2Proof.Machine
end

