-- ==== Sys2Proof/Machine/Step.lean ====
section
/-! DEFINITION. One step of the machine, and the host's way to put an instruction where the next step fetches it. -/

namespace Sys2Proof.Machine

/-- One atomic transition of the agent whose turn it is (20_memory.md R72, R74). -/
def step (s : State) : Host.Outcome State Fault Refusal := move (nextMove s).1 (nextMove s).2

/-- `s` with a table word stored where `step` fetches its next instruction; it stands for the load of a program from outside
the machine (log entries 1 and 11). -/
def State.withFetchWord (s : State) (nbits w : Nat) : State := placeWord (tableWord nbits w) s

end Sys2Proof.Machine
end

