-- ==== Sys2Proof/Safety.lean ====
section
/-! DEFINITION. The terms claims are stated in: a machine that has not faulted, the invariant of every step, what an instruction
leaves unchanged, which instructions write a register or raise a fault, what a program can see of a state, and which pixels a
sprite covers. -/

namespace Sys2Proof.Machine

/-- Safe so far: no fault is latched (60_exceptions.md R220, R228). -/
def State.faultFree (s : State) : Bool := s.fault = none

/-- What every step keeps: memory in its canonical form; pc at most 0x10FE, the highest a jump can give (10_state.md R30); every
stack entry at most 4096, the highest return address a call can push (41_control_flow.md R143). -/
structure State.Inv (s : State) : Prop where
  memory : Memory.wf s.mem = true
  pcBound : s.pc.toNat ≤ 0x10FE
  stackBound : ∀ k, (s.stack.get k).toNat ≤ 4096

/-- The pieces of state that only some instructions write (10_state.md R20, "written by"). -/
inductive Part where
  | memory
  | index
  | stack
  | delay
  | sound
  | keys
  | screen
  | log
  | latch
  | draws
  deriving DecidableEq, Repr

/-- The frame of a step from `s` to `t`: every general register but those of `regs`, and every part but those of `parts`, is as
before. RUN and the schedule (the model's own, log entry 2) always are; pc may change. Memory is compared byte by byte, at every address. -/
structure Unchanged (parts : List Part) (regs : List Idx) (s t : State) : Prop where
  registers : ∀ r, r ∉ regs → getV t r = getV s r
  memory : Part.memory ∉ parts → ∀ a, Memory.read t.mem a = Memory.read s.mem a
  index : Part.index ∉ parts → t.i = s.i
  stack : Part.stack ∉ parts → t.sp = s.sp ∧ t.stack = s.stack
  delay : Part.delay ∉ parts → t.dt = s.dt
  sound : Part.sound ∉ parts → t.st = s.st
  keys : Part.keys ∉ parts → t.key = s.key
  screen : Part.screen ∉ parts → t.fb = s.fb
  log : Part.log ∉ parts → t.out = s.out
  latch : Part.latch ∉ parts → t.fault = s.fault
  draws : Part.draws ∉ parts → t.draws = s.draws
  run : t.run = s.run
  schedule : t.schedule = s.schedule

/-- `i` can write V[r]: the lists "Writes of `V[X]`" and "Writes of `V[0..X]`" of 10_state.md R22, and the implicit writes of VF
of R25. -/
def writesRegister (i : Instr) (r : Idx) : Bool :=
  match i with
  | .ldVxKk x _ | .addVxKk x _ | .ldVxVy x _ | .orVxVy x _ | .andVxVy x _ | .xorVxVy x _ | .rndVxKk x _ | .ldVxDt x
  | .ldVxK x => r = x
  | .addVxVy x _ | .subVxVy x _ | .shrVx x _ | .subnVxVy x _ | .shlVx x _ => r = x || r = regF
  | .drawVxVyN _ _ _ => r = regF
  | .ldVxImem x => r ≤ x
  | .cls | .ret | .sysNnn _ | .jmpNnn _ | .callNnn _ | .seVxKk _ _ | .sneVxKk _ _ | .seVxVy _ _ | .sneVxVy _ _
  | .ldINnn _ | .jmpV0Nnn _ | .skpVx _ | .sknpVx _ | .ldDtVx _ | .ldStVx _ | .addIVx _ | .ldFVx _ | .ldBVx _
  | .ldImemVx _ => false

/-- `i` can raise a fault of its own when it executes: the column "raised by" of 60_exceptions.md R221. -/
def canFault (i : Instr) : Bool :=
  match i with
  | .sysNnn _ | .callNnn _ | .ret | .ldBVx _ | .ldImemVx _ | .ldVxImem _ | .drawVxVyN _ _ _ | .skpVx _ | .sknpVx _ => true
  | .cls | .jmpNnn _ | .seVxKk _ _ | .sneVxKk _ _ | .seVxVy _ _ | .ldVxKk _ _ | .addVxKk _ _ | .ldVxVy _ _ | .orVxVy _ _
  | .andVxVy _ _ | .xorVxVy _ _ | .addVxVy _ _ | .subVxVy _ _ | .shrVx _ _ | .subnVxVy _ _ | .shlVx _ _ | .sneVxVy _ _
  | .ldINnn _ | .jmpV0Nnn _ | .rndVxKk _ _ | .ldVxDt _ | .ldVxK _ | .ldDtVx _ | .ldStVx _ | .addIVx _ | .ldFVx _ => false

/-- Two states a program cannot tell apart: they may differ in ST, RUN, FAULT and OUT, which no instruction reads
(10_state.md R33, R36, R37, 44_display.md R199). -/
structure SameToProgram (s t : State) : Prop where
  memory : s.mem = t.mem
  registers : s.v = t.v
  index : s.i = t.i
  pc : s.pc = t.pc
  sp : s.sp = t.sp
  stack : s.stack = t.stack
  delay : s.dt = t.dt
  keys : s.key = t.key
  screen : s.fb = t.fb
  draws : s.draws = t.draws
  schedule : s.schedule = t.schedule

/-- Pixel (row, col) is covered by a set bit of the sprite that DRAW_VX_VY_N draws from state `s` (44_display.md R191, R194):
its row is row `row - y0` of the sprite, and its column is column offset `(col - x0) mod 64` below 8 of that row, most
significant bit leftmost; rows that would stand below row 31 cover nothing. -/
def spriteCovers (s : State) (x y : Idx) (n : Nat) (row : Fin 32) (col : Fin 64) : Bool :=
  let x0 := (getV s x).toNat % 64
  let y0 := (getV s y).toNat % 32
  let offset := (col.val + (64 - x0)) % 64
  y0 ≤ row.val && row.val - y0 < n && offset < 8 &&
    (Memory.read s.mem (s.i.toNat + (row.val - y0))).getLsbD (7 - offset)

end Sys2Proof.Machine
end

