-- ==== Sys2Proof/Certificates/Slice0/Obligations.lean ====
section
/-! DEFINITION. The statements for the provers, from the numbered rules of spec/. A statement that rests on a decision or an
inference the spec marks as its own (D1 to D35), or on a log entry, is 'derived' and its docstring says so. -/

open Sys2Proof Sys2Proof.Machine

/-! ## Encoding -/

/-- Words written out from 30_encoding.md R98 decode to their instructions, at least one word of every family; and words of each
illegal family decode to none (the patterns are the spec's from general knowledge, D1, log entry 7). -/
def Obligations.SampleWordsDecode : Prop :=
  decodeWord 0x00E0 = some .cls ∧ decodeWord 0x00EE = some .ret ∧ decodeWord 0x00E1 = some (.sysNnn 0x0E1) ∧
  decodeWord 0x1234 = some (.jmpNnn 0x234) ∧ decodeWord 0x8AB4 = some (.addVxVy 10 11) ∧
  decodeWord 0x6AFF = some (.ldVxKk 10 0xFF) ∧ decodeWord 0xBFFF = some (.jmpV0Nnn 0xFFF) ∧
  decodeWord 0xD12F = some (.drawVxVyN 1 2 15) ∧ decodeWord 0xE19E = some (.skpVx 1) ∧
  decodeWord 0xF107 = some (.ldVxDt 1) ∧ decodeWord 0xF355 = some (.ldImemVx 3) ∧
  decodeWord 0x5121 = none ∧ decodeWord 0x8128 = none ∧ decodeWord 0x9121 = none ∧ decodeWord 0xE19F = none ∧
  decodeWord 0xF11F = none

/-- Decoding the bytes of any well-formed instruction, every field at every value, gives it back and leaves the bytes after it
(30_encoding.md R91, R94, R96; patterns: D1). -/
def Obligations.DecodeOfEncodeIsIdentity : Prop :=
  ∀ (i : Instr) (rest : List Byte), i.wellFormed = true → decode (encode i ++ rest) = .ok i rest

/-- Each word that decodes is the encoding of what it decodes to, which is well-formed: no bit of a word is ignored by the
syntax, the Y field of the shifts included (R102, log entry 12; patterns: D1). -/
def Obligations.EncodeOfDecodeIsIdentity : Prop :=
  ∀ (op : Word) (i : Instr), decodeWord op = some i → encodeWord i = op ∧ i.wellFormed = true

/-- Exactly two pairs of rows overlap: CLS and RET, each with SYS_NNN, which stands behind both (rows 0, 1 and 2 counted from
0). R97, 90_conflicts.md C3. -/
def Obligations.OnlyClsAndRetOverlapSys : Prop :=
  ∀ (j k : Nat) (dj dk : Descriptor), descriptors[j]? = some dj → descriptors[k]? = some dk → j < k →
    ((∃ op, dj.isMatch op = true ∧ dk.isMatch op = true) ↔ (j = 0 ∧ k = 2) ∨ (j = 1 ∧ k = 2))

/-- The words that decode to nothing, family by family (30_encoding.md R100, which also counts them; patterns: D1). -/
def Obligations.IllegalWordsCharacterized : Prop :=
  ∀ op : Word, decodeWord op = none ↔
    (op.toNat / 4096 = 5 ∧ op.toNat % 16 ≠ 0) ∨
    (op.toNat / 4096 = 8 ∧ op.toNat % 16 ∈ [8, 9, 0xA, 0xB, 0xC, 0xD, 0xF]) ∨
    (op.toNat / 4096 = 9 ∧ op.toNat % 16 ≠ 0) ∨
    (op.toNat / 4096 = 0xE ∧ op.toNat % 256 ∉ [0x9E, 0xA1]) ∨
    (op.toNat / 4096 = 0xF ∧ op.toNat % 256 ∉ [0x07, 0x0A, 0x15, 0x18, 0x1E, 0x29, 0x33, 0x55, 0x65])

/-! ## The step -/

/-- A step runs the decoded instruction (30_encoding.md R90): with the CPU step enabled and the CPU's turn, when the two bytes at
pc decode to `i`, the step is exec of `i`; with a CPU move scheduled, exec of `i` with that move taken off (the schedule: log
entry 2). -/
def Obligations.StepRunsDecodedInstruction : Prop :=
  ∀ (s : State) (i : Instr) (rest : List Byte), s.run = .running → s.fault = none → s.pc.toNat ≤ 4094 →
    decode (Memory.readBytes s.mem s.pc.toNat 2 ++ rest) = .ok i rest →
    (s.schedule = [] → step s = exec i s) ∧
    (∀ later, s.schedule = .cpu :: later → step s = exec i { s with schedule := later })

/-- The fetch (20_memory.md R62): the word's upper byte is at the lower address. -/
def Obligations.FetchIsBigEndian : Prop :=
  ∀ s : State, s.pc.toNat ≤ 4094 → ∃ op, fetch s = .ok op ∧
    op.toNat = (Memory.read s.mem s.pc.toNat).toNat * 256 + (Memory.read s.mem (s.pc.toNat + 1)).toNat

/-- A fetch beyond memory takes AddressFault(a, Fetch), a the lowest address that does not exist, and nothing else changes
(20_memory.md R67, whose case pc = 4095 the spec marks as derived), whether the CPU moves because nothing is scheduled or because
its move is first in the schedule, which is then taken off (log entry 2). -/
def Obligations.FetchBeyondMemoryFaults : Prop :=
  ∀ s : State, s.run = .running → s.fault = none → 4094 < s.pc.toNat →
    let taken : Fault := .addressFault (if 4095 < s.pc.toNat then s.pc.toNat else 4096) .fetch
    (s.schedule = [] → step s = .next { s with fault := some taken }) ∧
    (∀ later, s.schedule = .cpu :: later → step s = .next { s with schedule := later, fault := some taken })

/-- A word that no descriptor matches takes UnrecognizedOpcode with the raw word (60_exceptions.md R222); by R228 nothing else
changes (the spec's decision D11), but for the CPU's move where it is first in the schedule (log entry 2). -/
def Obligations.UnrecognizedWordFaults : Prop :=
  ∀ (s : State) (op : Word), s.run = .running → s.fault = none → fetch s = .ok op → decodeWord op = none →
    (s.schedule = [] → step s = .next { s with fault := some (.unrecognizedOpcode op) }) ∧
    (∀ later, s.schedule = .cpu :: later →
      step s = .next { s with schedule := later, fault := some (.unrecognizedOpcode op) })

/-- Every step answers a next state: no instruction is refused and no state is without a successor (log entries 4 and 9). -/
def Obligations.EveryStepAnswersNext : Prop := ∀ s : State, ∃ t, step s = .next t

/-- Faults are precise (60_exceptions.md R228, the spec's decisions D11 and D22): a CPU step that latches a fault changes nothing
but the latch, and then neither the CPU step nor the tick changes anything. R228 says of these two only that they are not
enabled; that a move not enabled answers the state unchanged is the model's (log entry 9). -/
def Obligations.FaultsArePrecise : Prop :=
  ∀ s t : State, s.fault = none → cpuStep s = .next t → t.fault ≠ none →
    (t = { s with fault := t.fault }) ∧ cpuStep t = .next t ∧ tick t = t

/-- What is enabled (60_exceptions.md R242): unless Running with no fault, a CPU step and a tick change nothing; in Exit no event
of the host changes anything either. That a step not enabled answers the state unchanged is the model's (log entry 9). -/
def Obligations.DisabledMovesChangeNothing : Prop :=
  ∀ s : State,
    ((s.run ≠ .running ∨ s.fault ≠ none) → move .cpu s = .next s ∧ move .tick s = .next s) ∧
    (s.run = .exit → ∀ m, move m s = .next s)

/-- After Exit every run of any length changes nothing but the schedule, whose moves it uses up. That no event changes the core
is 60_exceptions.md R244 (D34); that the run goes on, and takes a move off the schedule at each step, is the model's (log
entries 2 and 9). -/
def Obligations.ExitIsTerminal : Prop :=
  ∀ (n : Nat) (s : State), s.run = .exit → core.run n s = .next { s with schedule := s.schedule.drop n }

/-- The run state changes only as 60_exceptions.md R240 says: by `load_program` to Running, never from Exit, and by
`request_exit` to Exit; no instruction, no fault and no other event changes it. -/
def Obligations.RunStateTransitions : Prop :=
  ∀ (m : Move) (s t : State), move m s = .next t →
    t.run = s.run ∨ (∃ bytes, m = .loadProgram bytes ∧ s.run ≠ .exit ∧ t.run = .running) ∨
      (m = .requestExit ∧ t.run = .exit)

/-- A faulted machine is frozen until a load (10_state.md R37, 60_exceptions.md R231, the spec's decision D22): every move but
`load_program` leaves the latch and everything a program works on as it was. That the CPU step and the tick, not enabled,
answer a state at all is the model's (log entry 9). -/
def Obligations.FaultFreezesUntilLoad : Prop :=
  ∀ (m : Move) (s t : State), s.fault ≠ none → move m s = .next t → (∀ bytes, m ≠ .loadProgram bytes) →
    t.fault = s.fault ∧ t.mem = s.mem ∧ t.v = s.v ∧ t.i = s.i ∧ t.pc = s.pc ∧ t.sp = s.sp ∧ t.stack = s.stack ∧
      t.dt = s.dt ∧ t.st = s.st ∧ t.out = s.out

/-- Every step keeps the invariant: memory in canonical form, pc at most 0x10FE (10_state.md R30, marked derived), stack entries
at most 4096 (41_control_flow.md R143). -/
def Obligations.EveryStepKeepsInvariant : Prop :=
  ∀ s t : State, s.Inv → step s = .next t → t.Inv

/-- The invariant holds right after reset. -/
def Obligations.ResetMeetsInvariant : Prop := State.reset.Inv

/-- A program cannot read ST, RUN, FAULT or OUT (10_state.md R36, R37, 43_timers.md R179, 44_display.md R199): from two states
that differ only there, every instruction answers states that differ only there. -/
def Obligations.ProgramCannotSeeHiddenState : Prop :=
  ∀ (i : Instr) (s s' t t' : State), SameToProgram s s' → exec i s = .next t → exec i s' = .next t' → SameToProgram t t'

/-- Who writes what: each part of the state but pc, which every instruction writes, changes only if the instruction is one of
the part's writers (10_state.md R20 "written by", R61; V0..VF: R22, marked derived, with VF's implicit writers of R25, D6; FAULT:
60_exceptions.md R221; RUN: R240). The draw counter and the schedule are the model's own (log entries 5 and 2). -/
def Obligations.WritersOfEachPart : Prop :=
  ∀ (i : Instr) (s t : State), exec i s = .next t →
    ((∀ x, i ≠ .ldBVx x ∧ i ≠ .ldImemVx x) → t.mem = s.mem) ∧
    (∀ r, writesRegister i r = false → getV t r = getV s r) ∧
    ((∀ nnn x, i ≠ .ldINnn nnn ∧ i ≠ .addIVx x ∧ i ≠ .ldFVx x) → t.i = s.i) ∧
    ((∀ nnn, i ≠ .callNnn nnn) → t.stack = s.stack) ∧
    ((∀ nnn, i ≠ .callNnn nnn ∧ i ≠ .ret) → t.sp = s.sp) ∧
    ((∀ x, i ≠ .ldDtVx x) → t.dt = s.dt) ∧
    ((∀ x, i ≠ .ldStVx x) → t.st = s.st) ∧
    ((∀ x, i ≠ .ldVxK x) → t.key = s.key) ∧
    ((∀ x y n, i ≠ .cls ∧ i ≠ .drawVxVyN x y n) → t.fb = s.fb ∧ t.out = s.out) ∧
    ((∀ x y n, i ≠ .addVxVy x y ∧ i ≠ .subVxVy x y ∧ i ≠ .subnVxVy x y ∧ i ≠ .shrVx x y ∧ i ≠ .shlVx x y ∧
      i ≠ .drawVxVyN x y n) →
      (∀ kk y, i ≠ .ldVxKk 15 kk ∧ i ≠ .addVxKk 15 kk ∧ i ≠ .ldVxVy 15 y ∧ i ≠ .orVxVy 15 y ∧ i ≠ .andVxVy 15 y ∧
        i ≠ .xorVxVy 15 y ∧ i ≠ .rndVxKk 15 kk ∧ i ≠ .ldVxDt 15 ∧ i ≠ .ldVxK 15 ∧ i ≠ .ldVxImem 15) →
      getV t 15 = getV s 15) ∧
    (canFault i = false → t.fault = s.fault) ∧
    ((∀ x kk, i ≠ .rndVxKk x kk) → t.draws = s.draws) ∧
    t.run = s.run ∧ t.schedule = s.schedule

/-- `frame_ready` is emitted once, with the framebuffer after the instruction, by CLS and by DRAW_VX_VY_N when it does not fault,
and by no other instruction (44_display.md R199; that the host's clears emit none is D26). -/
def Obligations.FrameReadyEmission : Prop :=
  ∀ (i : Instr) (s t : State), s.fault = none → exec i s = .next t →
    t.out = if (i = .cls ∨ ∃ x y n, i = .drawVxVyN x y n) ∧ t.fault = none then s.out ++ [.frameReady t.fb] else s.out

/-! ## Register load, arithmetic, logic, shift, random -/

/-- LD_VX_KK, LD_VX_VY, LD_VX_DT complete with their value in VX, pc + 2 and nothing else changed; X = 15 is an ordinary
destination (40_arith_logic.md R120, R122, 43_timers.md R176: from general knowledge, as the spec marks them). -/
def Obligations.RegisterLoads : Prop :=
  ∀ (x y : Idx) (kk : Byte) (s : State),
    (∃ t, exec (.ldVxKk x kk) s = .next t ∧ getV t x = kk ∧ t.pc = s.pc + 2 ∧ Unchanged [] [x] s t) ∧
    (∃ t, exec (.ldVxVy x y) s = .next t ∧ getV t x = getV s y ∧ t.pc = s.pc + 2 ∧ Unchanged [] [x] s t) ∧
    (∃ t, exec (.ldVxDt x) s = .next t ∧ getV t x = s.dt ∧ t.pc = s.pc + 2 ∧ Unchanged [] [x] s t)

/-- ADD_VX_KK wraps at 8 bits and writes no flag (40_arith_logic.md R121; the absent flag is the spec's decision D6). -/
def Obligations.AddImmediateWrapsWithoutFlag : Prop :=
  ∀ (x : Idx) (kk : Byte) (s : State), ∃ t, exec (.addVxKk x kk) s = .next t ∧
    (getV t x).toNat = ((getV s x).toNat + kk.toNat) % 256 ∧ t.pc = s.pc + 2 ∧ Unchanged [] [x] s t

/-- OR, AND, XOR are bitwise on 8 bits and leave VF alone unless it is the destination (40_arith_logic.md R123 to R125, D6). -/
def Obligations.LogicIsBitwise : Prop :=
  ∀ (x y : Idx) (s : State),
    (∃ t, exec (.orVxVy x y) s = .next t ∧
      (∀ b, (getV t x).getLsbD b = ((getV s x).getLsbD b || (getV s y).getLsbD b)) ∧
      t.pc = s.pc + 2 ∧ Unchanged [] [x] s t) ∧
    (∃ t, exec (.andVxVy x y) s = .next t ∧
      (∀ b, (getV t x).getLsbD b = ((getV s x).getLsbD b && (getV s y).getLsbD b)) ∧
      t.pc = s.pc + 2 ∧ Unchanged [] [x] s t) ∧
    (∃ t, exec (.xorVxVy x y) s = .next t ∧
      (∀ b, (getV t x).getLsbD b = ((getV s x).getLsbD b ^^ (getV s y).getLsbD b)) ∧
      t.pc = s.pc + 2 ∧ Unchanged [] [x] s t)

/-- ADD_VX_VY: the sum modulo 256 in VX, VF = 1 iff the sum exceeds 255, the flag written last (40_arith_logic.md R126; the
order, which decides X = 15, is the spec's decision D5). -/
def Obligations.AddSetsCarry : Prop :=
  ∀ (x y : Idx) (s : State), ∃ t, exec (.addVxVy x y) s = .next t ∧
    (x ≠ 15 → (getV t x).toNat = ((getV s x).toNat + (getV s y).toNat) % 256) ∧
    getV t 15 = (if (getV s x).toNat + (getV s y).toNat > 255 then 1 else 0) ∧
    t.pc = s.pc + 2 ∧ Unchanged [] [x, 15] s t

/-- SUB_VX_VY: VX - VY modulo 256, VF = 1 iff VX > VY, so 0 when they are equal (40_arith_logic.md
R127; strictness is the spec's decision D7, the order for X = 15 D5). -/
def Obligations.SubtractSetsGreaterFlag : Prop :=
  ∀ (x y : Idx) (s : State), ∃ t, exec (.subVxVy x y) s = .next t ∧
    (x ≠ 15 → ((getV t x).toNat : Int) = (((getV s x).toNat : Int) - (getV s y).toNat) % 256) ∧
    getV t 15 = (if (getV s x).toNat > (getV s y).toNat then 1 else 0) ∧
    t.pc = s.pc + 2 ∧ Unchanged [] [x, 15] s t

/-- SUBN_VX_VY: VY - VX modulo 256, VF = 1 iff VX < VY (40_arith_logic.md R129; D7 and D5 as above). -/
def Obligations.ReverseSubtractSetsLessFlag : Prop :=
  ∀ (x y : Idx) (s : State), ∃ t, exec (.subnVxVy x y) s = .next t ∧
    (x ≠ 15 → ((getV t x).toNat : Int) = (((getV s y).toNat : Int) - (getV s x).toNat) % 256) ∧
    getV t 15 = (if (getV s x).toNat < (getV s y).toNat then 1 else 0) ∧
    t.pc = s.pc + 2 ∧ Unchanged [] [x, 15] s t

/-- SHR_VX halves VX and VF is the bit shifted out; SHL_VX doubles it modulo 256 and VF is 0x80 or 0x00, the raw masked bit
(40_arith_logic.md R128, R130). That VX is shifted in place and Y ignored is the spec's decision D4. -/
def Obligations.ShiftsKeepRawFlag : Prop :=
  ∀ (x y : Idx) (s : State),
    (∃ t, exec (.shrVx x y) s = .next t ∧ (x ≠ 15 → (getV t x).toNat = (getV s x).toNat / 2) ∧
      (getV t 15).toNat = (getV s x).toNat % 2 ∧ t.pc = s.pc + 2 ∧ Unchanged [] [x, 15] s t) ∧
    (∃ t, exec (.shlVx x y) s = .next t ∧ (x ≠ 15 → (getV t x).toNat = 2 * (getV s x).toNat % 256) ∧
      getV t 15 = (if 128 ≤ (getV s x).toNat then 0x80 else 0x00) ∧ t.pc = s.pc + 2 ∧ Unchanged [] [x, 15] s t)

/-- RND_VX_KK completes for every random byte; the byte is the free value (log entry 5, D21), VX is that byte masked by KK, and
has no bit that KK lacks (40_arith_logic.md R131). -/
def Obligations.RandomByteIsMasked : Prop :=
  ∀ (x : Idx) (kk : Byte) (s : State), ∃ t, exec (.rndVxKk x kk) s = .next t ∧
    (∀ b, (getV t x).getLsbD b = ((Config.freeByte s.draws).getLsbD b && kk.getLsbD b)) ∧
    t.draws = s.draws + 1 ∧ t.pc = s.pc + 2 ∧ Unchanged [.draws] [x] s t

/-! ## Control transfer -/

/-- SYS_NNN always takes SysUnsupported with its whole word, and nothing else changes (41_control_flow.md R140, D2). -/
def Obligations.SysFaultsWithItsWord : Prop :=
  ∀ (nnn : Imm12) (s : State), ∃ op : Word, op.toNat = nnn.toNat ∧
    exec (.sysNnn nnn) s = .next { s with fault := some (.sysUnsupported op) }

/-- JMP_NNN sets pc to NNN absolutely, with no further advance (41_control_flow.md R142). -/
def Obligations.JumpIsAbsolute : Prop :=
  ∀ (nnn : Imm12) (s : State), ∃ t, exec (.jmpNnn nnn) s = .next t ∧ t.pc.toNat = nnn.toNat ∧ Unchanged [] [] s t ∧
    (s.pc.toNat = nnn.toNat → t = s)

/-- JMP_V0_NNN sets pc to NNN + V[0] with no wrap and no mask to 12 bits; the jump itself never faults (41_control_flow.md
R148). -/
def Obligations.IndexedJumpDoesNotWrap : Prop :=
  ∀ (nnn : Imm12) (s : State), ∃ t, exec (.jmpV0Nnn nnn) s = .next t ∧ t.pc.toNat = nnn.toNat + (getV s 0).toNat ∧
    Unchanged [] [] s t

/-- CALL_NNN with room on the stack pushes pc + 2 at STACK[SP], counts it and jumps; the other entries stay (41_control_flow.md
R143; that all 16 entries are usable is the spec's decision D10). -/
def Obligations.CallPushesReturnAddress : Prop :=
  ∀ (nnn : Imm12) (s : State) (h : s.sp.val < 16), ∃ t, exec (.callNnn nnn) s = .next t ∧
    t.stack.get ⟨s.sp.val, h⟩ = s.pc + 2 ∧ (∀ k : Idx, k.val ≠ s.sp.val → t.stack.get k = s.stack.get k) ∧
    t.sp.val = s.sp.val + 1 ∧ t.pc.toNat = nnn.toNat ∧ Unchanged [.stack] [] s t

/-- RET with a live entry pops it into pc directly and leaves the entry in place (41_control_flow.md R141; the stale entry is the
spec's decision D10). -/
def Obligations.ReturnPopsIntoPc : Prop :=
  ∀ (s : State) (k : Idx), s.sp.val = k.val + 1 → ∃ t, exec .ret s = .next t ∧
    t.pc = s.stack.get k ∧ t.sp.val = k.val ∧ t.stack = s.stack ∧ Unchanged [.stack] [] s t

/-- CALL_NNN with 16 entries live takes StackOverflow, RET with none takes StackUnderflow, and nothing else changes
(60_exceptions.md R223, R224; the depth 16 is the spec's decision D10, the fault on an empty stack D9, precision D11). -/
def Obligations.StackLimitsFault : Prop :=
  ∀ (nnn : Imm12) (s : State),
    (s.sp.val = 16 → exec (.callNnn nnn) s = .next { s with fault := some .stackOverflow }) ∧
    (s.sp.val = 0 → exec .ret s = .next { s with fault := some .stackUnderflow })

/-- A return right after a call comes back to the instruction after the call, at the depth before it, whatever the subroutine
did that left the stack as the call made it (41_control_flow.md R141, R143, R151). -/
def Obligations.CallThenReturnComesBack : Prop :=
  ∀ (nnn : Imm12) (s t u : State), s.sp.val < 16 → exec (.callNnn nnn) s = .next t → u.sp = t.sp → u.stack = t.stack →
    ∃ w, exec .ret u = .next w ∧ w.pc = s.pc + 2 ∧ w.sp = s.sp

/-- The four register skips add 4 when their condition holds and 2 when it does not, and change nothing but pc
(41_control_flow.md R150; the comparisons R144 to R147 are from general knowledge, as the spec marks them). -/
def Obligations.SkipsAddFourOrTwo : Prop :=
  ∀ (x y : Idx) (kk : Byte) (s : State),
    (∃ t, exec (.seVxKk x kk) s = .next t ∧ t.pc = s.pc + (if (getV s x).toNat = kk.toNat then 4 else 2) ∧
      Unchanged [] [] s t) ∧
    (∃ t, exec (.sneVxKk x kk) s = .next t ∧ t.pc = s.pc + (if (getV s x).toNat = kk.toNat then 2 else 4) ∧
      Unchanged [] [] s t) ∧
    (∃ t, exec (.seVxVy x y) s = .next t ∧ t.pc = s.pc + (if (getV s x).toNat = (getV s y).toNat then 4 else 2) ∧
      Unchanged [] [] s t) ∧
    (∃ t, exec (.sneVxVy x y) s = .next t ∧ t.pc = s.pc + (if (getV s x).toNat = (getV s y).toNat then 2 else 4) ∧
      Unchanged [] [] s t)

/-! ## Index register and memory -/

/-- LD_I_NNN, ADD_I_VX (modulo 65536, no flag, D31) and LD_F_VX (all 8 bits of VX, D32) set I and change nothing else
(42_index_memory.md R161, R162, R164). -/
def Obligations.IndexInstructions : Prop :=
  ∀ (nnn : Imm12) (x : Idx) (s : State),
    (∃ t, exec (.ldINnn nnn) s = .next t ∧ t.i.toNat = nnn.toNat ∧ t.pc = s.pc + 2 ∧ Unchanged [.index] [] s t) ∧
    (∃ t, exec (.addIVx x) s = .next t ∧ t.i.toNat = (s.i.toNat + (getV s x).toNat) % 65536 ∧ t.pc = s.pc + 2 ∧
      Unchanged [.index] [] s t) ∧
    (∃ t, exec (.ldFVx x) s = .next t ∧ t.i.toNat = (getV s x).toNat * 5 ∧ t.pc = s.pc + 2 ∧
      Unchanged [.index] [] s t)

/-- LD_B_VX within memory stores the hundreds, tens and ones digits at I, I + 1, I + 2, and every byte outside those three
addresses reads as before (42_index_memory.md R165). The premise that memory is canonical is the invariant's. -/
def Obligations.BcdStoresThreeDigits : Prop :=
  ∀ (x : Idx) (s : State), Memory.wf s.mem = true → s.i.toNat ≤ 4093 → ∃ t, exec (.ldBVx x) s = .next t ∧
    (Memory.read t.mem (base s)).toNat = (getV s x).toNat / 100 ∧
    (Memory.read t.mem (base s + 1)).toNat = (getV s x).toNat / 10 % 10 ∧
    (Memory.read t.mem (base s + 2)).toNat = (getV s x).toNat % 10 ∧
    (∀ a, (a < base s ∨ base s + 3 ≤ a) → Memory.read t.mem a = Memory.read s.mem a) ∧
    t.pc = s.pc + 2 ∧ Unchanged [.memory] [] s t

/-- LD_IMEM_VX within memory stores V0..VX, X + 1 registers, at I, I + 1, ...; every other byte reads as before, and I stays
(42_index_memory.md R166; the unchanged I is the spec's decision D8). -/
def Obligations.DumpStoresRegistersInclusive : Prop :=
  ∀ (x : Idx) (s : State), Memory.wf s.mem = true → s.i.toNat + x.val ≤ 4095 → ∃ t, exec (.ldImemVx x) s = .next t ∧
    (∀ k : Idx, k ≤ x → Memory.read t.mem (base s + k.val) = getV s k) ∧
    (∀ a, (a < base s ∨ base s + x.val < a) → Memory.read t.mem a = Memory.read s.mem a) ∧
    t.pc = s.pc + 2 ∧ Unchanged [.memory] [] s t

/-- LD_VX_IMEM within memory loads V0..VX from I, I + 1, ...; the registers above X and I stay (42_index_memory.md R167, D8). -/
def Obligations.LoadFillsRegistersInclusive : Prop :=
  ∀ (x : Idx) (s : State), s.i.toNat + x.val ≤ 4095 → ∃ t, exec (.ldVxImem x) s = .next t ∧
    (∀ k : Idx, k ≤ x → getV t k = Memory.read s.mem (base s + k.val)) ∧ (∀ k : Idx, x < k → getV t k = getV s k) ∧
    t.pc = s.pc + 2 ∧ Unchanged [] (allKeys.filter (· ≤ x)) s t

/-- A transfer whose range passes 4095 takes AddressFault with max(I, 4096) and its kind, and nothing else changes; the range of
a draw is that of all its N rows (42_index_memory.md R163, 44_display.md R196; the spec's decisions D11, D12, D16). -/
def Obligations.TransfersBeyondMemoryFault : Prop :=
  ∀ (x y : Idx) (n : Fin 16) (s : State),
    (4093 < s.i.toNat → exec (.ldBVx x) s = .next { s with fault := some (.addressFault (max s.i.toNat 4096) .write) }) ∧
    (4095 < s.i.toNat + x.val →
      exec (.ldImemVx x) s = .next { s with fault := some (.addressFault (max s.i.toNat 4096) .write) } ∧
      exec (.ldVxImem x) s = .next { s with fault := some (.addressFault (max s.i.toNat 4096) .read) }) ∧
    (0 < n.val → 4095 < s.i.toNat + n.val - 1 →
      exec (.drawVxVyN x y n) s = .next { s with fault := some (.addressFault (max s.i.toNat 4096) .read) })

/-- A store is seen by the very next fetch (20_memory.md R76, 70_reset_and_hazards.md R271; marked derived): a dump of V0, V1, ...
over the instruction after it makes V0 and V1 the word that is fetched next. -/
def Obligations.StoredWordIsFetchedNext : Prop :=
  ∀ (x : Idx) (s t : State), Memory.wf s.mem = true → 1 ≤ x.val → s.pc.toNat + 2 = s.i.toNat →
    s.i.toNat + x.val ≤ 4095 → exec (.ldImemVx x) s = .next t →
    ∃ op, fetch t = .ok op ∧ op.toNat = (getV s 0).toNat * 256 + (getV s 1).toNat

/-! ## Timers -/

/-- LD_DT_VX and LD_ST_VX set their timer and change nothing else (43_timers.md R177, R178: from general knowledge, as the spec
marks them). -/
def Obligations.TimerWrites : Prop :=
  ∀ (x : Idx) (s : State),
    (∃ t, exec (.ldDtVx x) s = .next t ∧ t.dt = getV s x ∧ t.pc = s.pc + 2 ∧ Unchanged [.delay] [] s t) ∧
    (∃ t, exec (.ldStVx x) s = .next t ∧ t.st = getV s x ∧ t.pc = s.pc + 2 ∧ Unchanged [.sound] [] s t)

/-- One tick while Running and not faulted takes one from each timer that is not zero, independently, and changes nothing else
(43_timers.md R180; when it is enabled is the spec's decision D20). -/
def Obligations.TickCountsDown : Prop :=
  ∀ s : State, s.run = .running → s.fault = none → ∃ t, move .tick s = .next t ∧
    t.dt.toNat = s.dt.toNat - 1 ∧ t.st.toNat = s.st.toNat - 1 ∧ t.pc = s.pc ∧ Unchanged [.delay, .sound] [] s t

/-! ## Display -/

/-- CLS turns every pixel off, emits one `frame_ready` with that screen, and leaves VF (44_display.md R190: from general
knowledge, as the spec marks it). -/
def Obligations.ClearTurnsEveryPixelOff : Prop :=
  ∀ s : State, ∃ t, exec .cls s = .next t ∧ (∀ r c, getPixel t.fb r c = false) ∧ t.out = s.out ++ [.frameReady t.fb] ∧
    t.pc = s.pc + 2 ∧ Unchanged [.screen, .log] [] s t

/-- DRAW_VX_VY_N within memory: each pixel becomes itself xor the sprite bit that covers it, VF is 1 iff a covered pixel was on,
one `frame_ready` carries the result (44_display.md R191 to R196). Per-pixel horizontal wrap is the spec's decision D15, N = 0
is D16, and that the coordinates are read before VF is written is D5. -/
def Obligations.DrawXorsTheSprite : Prop :=
  ∀ (x y : Idx) (n : Fin 16) (s : State), n.val = 0 ∨ s.i.toNat + n.val ≤ 4096 →
    ∃ t, exec (.drawVxVyN x y n) s = .next t ∧
      (∀ r c, getPixel t.fb r c = (getPixel s.fb r c ^^ spriteCovers s x y n.val r c)) ∧
      ((getV t 15 = 1 ∧ ∃ r c, spriteCovers s x y n.val r c = true ∧ getPixel s.fb r c = true) ∨
        (getV t 15 = 0 ∧ ∀ r c, spriteCovers s x y n.val r c = true → getPixel s.fb r c = false)) ∧
      t.out = s.out ++ [.frameReady t.fb] ∧ t.pc = s.pc + 2 ∧ Unchanged [.screen, .log] [15] s t

/-- Drawing the same sprite at the same place twice restores the framebuffer, and the second draw's VF is 1 iff some covered
pixel was off before the first (44_display.md R197, R198, marked derived; 90_conflicts.md C12). X and Y other than 15 keep the
place the same, since the first draw writes VF. -/
def Obligations.DrawTwiceRestoresScreen : Prop :=
  ∀ (x y : Idx) (n : Fin 16) (s t u : State), x ≠ 15 → y ≠ 15 → (n.val = 0 ∨ s.i.toNat + n.val ≤ 4096) →
    exec (.drawVxVyN x y n) s = .next t → exec (.drawVxVyN x y n) t = .next u →
    u.fb = s.fb ∧
      (getV u 15 = 1 ↔ ∃ r c, spriteCovers s x y n.val r c = true ∧ getPixel s.fb r c = false)

/-! ## Keys -/

/-- SKP_VX and SKNP_VX with a key index in 0..15 skip on the slot that the contents of VX name, and consume nothing
(45_keys.md R205, R206, R210). -/
def Obligations.KeySkipsTestTheSlot : Prop :=
  ∀ (x k : Idx) (s : State), (getV s x).toNat = k.val →
    (∃ t, exec (.skpVx x) s = .next t ∧ t.pc = s.pc + (if getKey s k = true then 4 else 2) ∧ Unchanged [] [] s t) ∧
    (∃ t, exec (.sknpVx x) s = .next t ∧ t.pc = s.pc + (if getKey s k = false then 4 else 2) ∧ Unchanged [] [] s t)

/-- SKP_VX and SKNP_VX with VX above 15 take KeyIndexRange with that value and nothing else changes (45_keys.md R205, R206,
60_exceptions.md R227; the spec's decision D17). -/
def Obligations.KeyIndexAboveFifteenFaults : Prop :=
  ∀ (x : Idx) (s : State), 15 < (getV s x).toNat →
    exec (.skpVx x) s = .next { s with fault := some (.keyIndexRange (getV s x)) } ∧
    exec (.sknpVx x) s = .next { s with fault := some (.keyIndexRange (getV s x)) }

/-- LD_VX_K with a key pressed consumes the lowest one, leaves the other slots, and stores its index (45_keys.md R207; the lowest
index and the level trigger are the spec's decision D18). -/
def Obligations.KeyWaitConsumesLowestKey : Prop :=
  ∀ (x k : Idx) (s : State), getKey s k = true → (∀ j, j < k → getKey s j = false) →
    ∃ t, exec (.ldVxK x) s = .next t ∧ (getV t x).toNat = k.val ∧ getKey t k = false ∧
      (∀ j, j ≠ k → getKey t j = getKey s j) ∧ t.pc = s.pc + 2 ∧ Unchanged [.keys] [x] s t

/-- LD_VX_K with no key pressed changes nothing: the wait is the instruction executed again (45_keys.md R207, the spec's
decision D19). -/
def Obligations.KeyWaitStallsUnchanged : Prop :=
  ∀ (x : Idx) (s : State), (∀ k, getKey s k = false) → exec (.ldVxK x) s = .next s

/-! ## Host events and reset -/

/-- `key_pressed(k)` sets slot k and `key_released(k)` clears it, in any run state but Exit, and nothing else changes
(45_keys.md R208, R209). -/
def Obligations.KeyEventsWriteOneSlot : Prop :=
  ∀ (k : Idx) (s : State), s.run ≠ .exit →
    (∃ t, move (.keyPressed k) s = .next t ∧ getKey t k = true ∧ (∀ j, j ≠ k → getKey t j = getKey s j) ∧ t.pc = s.pc ∧
      Unchanged [.keys] [] s t) ∧
    (∃ t, move (.keyReleased k) s = .next t ∧ getKey t k = false ∧ (∀ j, j ≠ k → getKey t j = getKey s j) ∧ t.pc = s.pc ∧
      Unchanged [.keys] [] s t)

/-- `request_exit()` sets RUN to Exit from any state and changes nothing else, and after it no CPU step and no tick has an
effect (60_exceptions.md R243, which says of the last two only that they are not enabled; that a move not enabled answers the
state unchanged is the model's, log entry 9). -/
def Obligations.ExitRequestOnlySetsRun : Prop :=
  ∀ s : State, ∃ t, move .requestExit s = .next t ∧ t.run = .exit ∧ { t with run := s.run } = s ∧
    move .cpu t = .next t ∧ move .tick t = .next t

/-- `resize` clears the framebuffer and changes nothing else, and emits nothing (44_display.md R200; the spec's decisions D26,
D27, D34). -/
def Obligations.ResizeOnlyClearsScreen : Prop :=
  ∀ (w h : Nat) (s : State), s.run ≠ .exit → ∃ t, move (.resize w h) s = .next t ∧
    (∀ r c, getPixel t.fb r c = false) ∧ t.pc = s.pc ∧ Unchanged [.screen] [] s t

/-- An accepted `load_program` leaves the entry state of 70_reset_and_hazards.md R262, R265 and R266, whatever went before:
memory is the font, the bytes from 0x200 on and zero elsewhere, and KEY and OUT are as the host left them (R263, D24; FAULT
cleared, D22; the font bytes, D3). -/
def Obligations.LoadGivesEntryState : Prop :=
  ∀ (bytes : List Byte) (s : State), s.run ≠ .exit → bytes.length ≤ 3584 →
    ∃ t, move (.loadProgram bytes) s = .next t ∧ Memory.wf t.mem = true ∧
      (∀ a, Memory.read t.mem a =
        if a < 80 then Config.font.getD a 0
        else if 0x200 ≤ a ∧ a < 0x200 + bytes.length then bytes.getD (a - 0x200) 0 else 0) ∧
      (∀ r, getV t r = 0) ∧ t.pc = 0x200 ∧ t.i = 0 ∧ t.sp = 0 ∧ (∀ k, t.stack.get k = 0) ∧ t.dt = 0 ∧ t.st = 0 ∧
      (∀ r c, getPixel t.fb r c = false) ∧ t.run = .running ∧ t.fault = none ∧ t.key = s.key ∧ t.out = s.out

/-- A `load_program` longer than 3584 bytes changes nothing but OUT, which gains one `load_error` (70_reset_and_hazards.md R264,
the spec's decision D24). -/
def Obligations.OversizeLoadIsRejected : Prop :=
  ∀ (bytes : List Byte) (s : State), s.run ≠ .exit → 3584 < bytes.length →
    move (.loadProgram bytes) s = .next { s with out := s.out ++ [.loadError] }

/-- The state after reset has the entry values of 70_reset_and_hazards.md R266; memory is the font and zeros; no key is pressed,
and nothing has been emitted (log entry 1). -/
def Obligations.ResetIsEntryState : Prop :=
  State.reset.pc = 0x200 ∧ (∀ r, getV State.reset r = 0) ∧ State.reset.i = 0 ∧ State.reset.sp = 0 ∧
  (∀ k, State.reset.stack.get k = 0) ∧ State.reset.dt = 0 ∧ State.reset.st = 0 ∧
  (∀ r c, getPixel State.reset.fb r c = false) ∧
  (∀ a, Memory.read State.reset.mem a = if a < 80 then Config.font.getD a 0 else 0) ∧
  (∀ k, getKey State.reset k = false) ∧ State.reset.run = .running ∧ State.reset.fault = none ∧ State.reset.out = []

/-- Reset is a load of no program from power-on, whatever registers and memory held before (70_reset_and_hazards.md R260, R261,
R265): only the model's own two fields are carried over (log entries 1, 8). -/
def Obligations.ResetIsLoadAfterPowerOn : Prop :=
  ∀ before : State, loadProgram [] (State.powerOn before) =
    { State.reset with schedule := before.schedule, draws := before.draws }

/-- The host's way to place an instruction: from any state with canonical memory, the next step runs the instruction that the
table word decodes to (log entry 11). -/
def Obligations.PlacedWordIsRunNext : Prop :=
  ∀ (s : State) (w : Nat) (i : Instr), Memory.wf s.mem = true → decodeTableWord 16 w = some i →
    step (s.withFetchWord 16 w) = exec i (s.withFetchWord 16 w)
end

