-- ==== Sys2Proof/Laws/State.lean ====
section
/-! SUPPORT. One lemma per field per update of the state, true by rfl, so that no proof unfolds a record update; and what a
register or key slot reads as after a write. -/

namespace Sys2Proof.Machine

@[simp] theorem setMem_mem (m : Memory) (s : State) : (setMem m s).mem = m := rfl
@[simp] theorem setMem_v (m : Memory) (s : State) : (setMem m s).v = s.v := rfl
@[simp] theorem setMem_i (m : Memory) (s : State) : (setMem m s).i = s.i := rfl
@[simp] theorem setMem_pc (m : Memory) (s : State) : (setMem m s).pc = s.pc := rfl
@[simp] theorem setMem_sp (m : Memory) (s : State) : (setMem m s).sp = s.sp := rfl
@[simp] theorem setMem_stack (m : Memory) (s : State) : (setMem m s).stack = s.stack := rfl
@[simp] theorem setMem_dt (m : Memory) (s : State) : (setMem m s).dt = s.dt := rfl
@[simp] theorem setMem_st (m : Memory) (s : State) : (setMem m s).st = s.st := rfl
@[simp] theorem setMem_key (m : Memory) (s : State) : (setMem m s).key = s.key := rfl
@[simp] theorem setMem_fb (m : Memory) (s : State) : (setMem m s).fb = s.fb := rfl
@[simp] theorem setMem_run (m : Memory) (s : State) : (setMem m s).run = s.run := rfl
@[simp] theorem setMem_fault (m : Memory) (s : State) : (setMem m s).fault = s.fault := rfl
@[simp] theorem setMem_out (m : Memory) (s : State) : (setMem m s).out = s.out := rfl
@[simp] theorem setMem_schedule (m : Memory) (s : State) : (setMem m s).schedule = s.schedule := rfl
@[simp] theorem setMem_draws (m : Memory) (s : State) : (setMem m s).draws = s.draws := rfl
@[simp] theorem getV_setMem (m : Memory) (s : State) (j : Idx) : getV (setMem m s) j = getV s j := rfl
@[simp] theorem getKey_setMem (m : Memory) (s : State) (j : Idx) : getKey (setMem m s) j = getKey s j := rfl

@[simp] theorem setI_mem (a : Word) (s : State) : (setI a s).mem = s.mem := rfl
@[simp] theorem setI_v (a : Word) (s : State) : (setI a s).v = s.v := rfl
@[simp] theorem setI_i (a : Word) (s : State) : (setI a s).i = a := rfl
@[simp] theorem setI_pc (a : Word) (s : State) : (setI a s).pc = s.pc := rfl
@[simp] theorem setI_sp (a : Word) (s : State) : (setI a s).sp = s.sp := rfl
@[simp] theorem setI_stack (a : Word) (s : State) : (setI a s).stack = s.stack := rfl
@[simp] theorem setI_dt (a : Word) (s : State) : (setI a s).dt = s.dt := rfl
@[simp] theorem setI_st (a : Word) (s : State) : (setI a s).st = s.st := rfl
@[simp] theorem setI_key (a : Word) (s : State) : (setI a s).key = s.key := rfl
@[simp] theorem setI_fb (a : Word) (s : State) : (setI a s).fb = s.fb := rfl
@[simp] theorem setI_run (a : Word) (s : State) : (setI a s).run = s.run := rfl
@[simp] theorem setI_fault (a : Word) (s : State) : (setI a s).fault = s.fault := rfl
@[simp] theorem setI_out (a : Word) (s : State) : (setI a s).out = s.out := rfl
@[simp] theorem setI_schedule (a : Word) (s : State) : (setI a s).schedule = s.schedule := rfl
@[simp] theorem setI_draws (a : Word) (s : State) : (setI a s).draws = s.draws := rfl
@[simp] theorem getV_setI (a : Word) (s : State) (j : Idx) : getV (setI a s) j = getV s j := rfl
@[simp] theorem getKey_setI (a : Word) (s : State) (j : Idx) : getKey (setI a s) j = getKey s j := rfl

@[simp] theorem setPc_mem (a : Word) (s : State) : (setPc a s).mem = s.mem := rfl
@[simp] theorem setPc_v (a : Word) (s : State) : (setPc a s).v = s.v := rfl
@[simp] theorem setPc_i (a : Word) (s : State) : (setPc a s).i = s.i := rfl
@[simp] theorem setPc_pc (a : Word) (s : State) : (setPc a s).pc = a := rfl
@[simp] theorem setPc_sp (a : Word) (s : State) : (setPc a s).sp = s.sp := rfl
@[simp] theorem setPc_stack (a : Word) (s : State) : (setPc a s).stack = s.stack := rfl
@[simp] theorem setPc_dt (a : Word) (s : State) : (setPc a s).dt = s.dt := rfl
@[simp] theorem setPc_st (a : Word) (s : State) : (setPc a s).st = s.st := rfl
@[simp] theorem setPc_key (a : Word) (s : State) : (setPc a s).key = s.key := rfl
@[simp] theorem setPc_fb (a : Word) (s : State) : (setPc a s).fb = s.fb := rfl
@[simp] theorem setPc_run (a : Word) (s : State) : (setPc a s).run = s.run := rfl
@[simp] theorem setPc_fault (a : Word) (s : State) : (setPc a s).fault = s.fault := rfl
@[simp] theorem setPc_out (a : Word) (s : State) : (setPc a s).out = s.out := rfl
@[simp] theorem setPc_schedule (a : Word) (s : State) : (setPc a s).schedule = s.schedule := rfl
@[simp] theorem setPc_draws (a : Word) (s : State) : (setPc a s).draws = s.draws := rfl
@[simp] theorem getV_setPc (a : Word) (s : State) (j : Idx) : getV (setPc a s) j = getV s j := rfl
@[simp] theorem getKey_setPc (a : Word) (s : State) (j : Idx) : getKey (setPc a s) j = getKey s j := rfl

@[simp] theorem setSp_mem (n : Fin 17) (s : State) : (setSp n s).mem = s.mem := rfl
@[simp] theorem setSp_v (n : Fin 17) (s : State) : (setSp n s).v = s.v := rfl
@[simp] theorem setSp_i (n : Fin 17) (s : State) : (setSp n s).i = s.i := rfl
@[simp] theorem setSp_pc (n : Fin 17) (s : State) : (setSp n s).pc = s.pc := rfl
@[simp] theorem setSp_sp (n : Fin 17) (s : State) : (setSp n s).sp = n := rfl
@[simp] theorem setSp_stack (n : Fin 17) (s : State) : (setSp n s).stack = s.stack := rfl
@[simp] theorem setSp_dt (n : Fin 17) (s : State) : (setSp n s).dt = s.dt := rfl
@[simp] theorem setSp_st (n : Fin 17) (s : State) : (setSp n s).st = s.st := rfl
@[simp] theorem setSp_key (n : Fin 17) (s : State) : (setSp n s).key = s.key := rfl
@[simp] theorem setSp_fb (n : Fin 17) (s : State) : (setSp n s).fb = s.fb := rfl
@[simp] theorem setSp_run (n : Fin 17) (s : State) : (setSp n s).run = s.run := rfl
@[simp] theorem setSp_fault (n : Fin 17) (s : State) : (setSp n s).fault = s.fault := rfl
@[simp] theorem setSp_out (n : Fin 17) (s : State) : (setSp n s).out = s.out := rfl
@[simp] theorem setSp_schedule (n : Fin 17) (s : State) : (setSp n s).schedule = s.schedule := rfl
@[simp] theorem setSp_draws (n : Fin 17) (s : State) : (setSp n s).draws = s.draws := rfl
@[simp] theorem getV_setSp (n : Fin 17) (s : State) (j : Idx) : getV (setSp n s) j = getV s j := rfl
@[simp] theorem getKey_setSp (n : Fin 17) (s : State) (j : Idx) : getKey (setSp n s) j = getKey s j := rfl

@[simp] theorem setStack_mem (k : Idx) (a : Word) (s : State) : (setStack k a s).mem = s.mem := rfl
@[simp] theorem setStack_v (k : Idx) (a : Word) (s : State) : (setStack k a s).v = s.v := rfl
@[simp] theorem setStack_i (k : Idx) (a : Word) (s : State) : (setStack k a s).i = s.i := rfl
@[simp] theorem setStack_pc (k : Idx) (a : Word) (s : State) : (setStack k a s).pc = s.pc := rfl
@[simp] theorem setStack_sp (k : Idx) (a : Word) (s : State) : (setStack k a s).sp = s.sp := rfl
@[simp] theorem setStack_stack (k : Idx) (a : Word) (s : State) : (setStack k a s).stack = s.stack.set k.val a k.isLt := rfl
@[simp] theorem setStack_dt (k : Idx) (a : Word) (s : State) : (setStack k a s).dt = s.dt := rfl
@[simp] theorem setStack_st (k : Idx) (a : Word) (s : State) : (setStack k a s).st = s.st := rfl
@[simp] theorem setStack_key (k : Idx) (a : Word) (s : State) : (setStack k a s).key = s.key := rfl
@[simp] theorem setStack_fb (k : Idx) (a : Word) (s : State) : (setStack k a s).fb = s.fb := rfl
@[simp] theorem setStack_run (k : Idx) (a : Word) (s : State) : (setStack k a s).run = s.run := rfl
@[simp] theorem setStack_fault (k : Idx) (a : Word) (s : State) : (setStack k a s).fault = s.fault := rfl
@[simp] theorem setStack_out (k : Idx) (a : Word) (s : State) : (setStack k a s).out = s.out := rfl
@[simp] theorem setStack_schedule (k : Idx) (a : Word) (s : State) : (setStack k a s).schedule = s.schedule := rfl
@[simp] theorem setStack_draws (k : Idx) (a : Word) (s : State) : (setStack k a s).draws = s.draws := rfl
@[simp] theorem getV_setStack (k : Idx) (a : Word) (s : State) (j : Idx) : getV (setStack k a s) j = getV s j := rfl
@[simp] theorem getKey_setStack (k : Idx) (a : Word) (s : State) (j : Idx) : getKey (setStack k a s) j = getKey s j := rfl

@[simp] theorem setDt_mem (b : Byte) (s : State) : (setDt b s).mem = s.mem := rfl
@[simp] theorem setDt_v (b : Byte) (s : State) : (setDt b s).v = s.v := rfl
@[simp] theorem setDt_i (b : Byte) (s : State) : (setDt b s).i = s.i := rfl
@[simp] theorem setDt_pc (b : Byte) (s : State) : (setDt b s).pc = s.pc := rfl
@[simp] theorem setDt_sp (b : Byte) (s : State) : (setDt b s).sp = s.sp := rfl
@[simp] theorem setDt_stack (b : Byte) (s : State) : (setDt b s).stack = s.stack := rfl
@[simp] theorem setDt_dt (b : Byte) (s : State) : (setDt b s).dt = b := rfl
@[simp] theorem setDt_st (b : Byte) (s : State) : (setDt b s).st = s.st := rfl
@[simp] theorem setDt_key (b : Byte) (s : State) : (setDt b s).key = s.key := rfl
@[simp] theorem setDt_fb (b : Byte) (s : State) : (setDt b s).fb = s.fb := rfl
@[simp] theorem setDt_run (b : Byte) (s : State) : (setDt b s).run = s.run := rfl
@[simp] theorem setDt_fault (b : Byte) (s : State) : (setDt b s).fault = s.fault := rfl
@[simp] theorem setDt_out (b : Byte) (s : State) : (setDt b s).out = s.out := rfl
@[simp] theorem setDt_schedule (b : Byte) (s : State) : (setDt b s).schedule = s.schedule := rfl
@[simp] theorem setDt_draws (b : Byte) (s : State) : (setDt b s).draws = s.draws := rfl
@[simp] theorem getV_setDt (b : Byte) (s : State) (j : Idx) : getV (setDt b s) j = getV s j := rfl
@[simp] theorem getKey_setDt (b : Byte) (s : State) (j : Idx) : getKey (setDt b s) j = getKey s j := rfl

@[simp] theorem setSt_mem (b : Byte) (s : State) : (setSt b s).mem = s.mem := rfl
@[simp] theorem setSt_v (b : Byte) (s : State) : (setSt b s).v = s.v := rfl
@[simp] theorem setSt_i (b : Byte) (s : State) : (setSt b s).i = s.i := rfl
@[simp] theorem setSt_pc (b : Byte) (s : State) : (setSt b s).pc = s.pc := rfl
@[simp] theorem setSt_sp (b : Byte) (s : State) : (setSt b s).sp = s.sp := rfl
@[simp] theorem setSt_stack (b : Byte) (s : State) : (setSt b s).stack = s.stack := rfl
@[simp] theorem setSt_dt (b : Byte) (s : State) : (setSt b s).dt = s.dt := rfl
@[simp] theorem setSt_st (b : Byte) (s : State) : (setSt b s).st = b := rfl
@[simp] theorem setSt_key (b : Byte) (s : State) : (setSt b s).key = s.key := rfl
@[simp] theorem setSt_fb (b : Byte) (s : State) : (setSt b s).fb = s.fb := rfl
@[simp] theorem setSt_run (b : Byte) (s : State) : (setSt b s).run = s.run := rfl
@[simp] theorem setSt_fault (b : Byte) (s : State) : (setSt b s).fault = s.fault := rfl
@[simp] theorem setSt_out (b : Byte) (s : State) : (setSt b s).out = s.out := rfl
@[simp] theorem setSt_schedule (b : Byte) (s : State) : (setSt b s).schedule = s.schedule := rfl
@[simp] theorem setSt_draws (b : Byte) (s : State) : (setSt b s).draws = s.draws := rfl
@[simp] theorem getV_setSt (b : Byte) (s : State) (j : Idx) : getV (setSt b s) j = getV s j := rfl
@[simp] theorem getKey_setSt (b : Byte) (s : State) (j : Idx) : getKey (setSt b s) j = getKey s j := rfl

@[simp] theorem setScreen_mem (f : Framebuffer) (s : State) : (setScreen f s).mem = s.mem := rfl
@[simp] theorem setScreen_v (f : Framebuffer) (s : State) : (setScreen f s).v = s.v := rfl
@[simp] theorem setScreen_i (f : Framebuffer) (s : State) : (setScreen f s).i = s.i := rfl
@[simp] theorem setScreen_pc (f : Framebuffer) (s : State) : (setScreen f s).pc = s.pc := rfl
@[simp] theorem setScreen_sp (f : Framebuffer) (s : State) : (setScreen f s).sp = s.sp := rfl
@[simp] theorem setScreen_stack (f : Framebuffer) (s : State) : (setScreen f s).stack = s.stack := rfl
@[simp] theorem setScreen_dt (f : Framebuffer) (s : State) : (setScreen f s).dt = s.dt := rfl
@[simp] theorem setScreen_st (f : Framebuffer) (s : State) : (setScreen f s).st = s.st := rfl
@[simp] theorem setScreen_key (f : Framebuffer) (s : State) : (setScreen f s).key = s.key := rfl
@[simp] theorem setScreen_fb (f : Framebuffer) (s : State) : (setScreen f s).fb = f := rfl
@[simp] theorem setScreen_run (f : Framebuffer) (s : State) : (setScreen f s).run = s.run := rfl
@[simp] theorem setScreen_fault (f : Framebuffer) (s : State) : (setScreen f s).fault = s.fault := rfl
@[simp] theorem setScreen_out (f : Framebuffer) (s : State) : (setScreen f s).out = s.out := rfl
@[simp] theorem setScreen_schedule (f : Framebuffer) (s : State) : (setScreen f s).schedule = s.schedule := rfl
@[simp] theorem setScreen_draws (f : Framebuffer) (s : State) : (setScreen f s).draws = s.draws := rfl
@[simp] theorem getV_setScreen (f : Framebuffer) (s : State) (j : Idx) : getV (setScreen f s) j = getV s j := rfl
@[simp] theorem getKey_setScreen (f : Framebuffer) (s : State) (j : Idx) : getKey (setScreen f s) j = getKey s j := rfl

@[simp] theorem setRun_mem (r : RunState) (s : State) : (setRun r s).mem = s.mem := rfl
@[simp] theorem setRun_v (r : RunState) (s : State) : (setRun r s).v = s.v := rfl
@[simp] theorem setRun_i (r : RunState) (s : State) : (setRun r s).i = s.i := rfl
@[simp] theorem setRun_pc (r : RunState) (s : State) : (setRun r s).pc = s.pc := rfl
@[simp] theorem setRun_sp (r : RunState) (s : State) : (setRun r s).sp = s.sp := rfl
@[simp] theorem setRun_stack (r : RunState) (s : State) : (setRun r s).stack = s.stack := rfl
@[simp] theorem setRun_dt (r : RunState) (s : State) : (setRun r s).dt = s.dt := rfl
@[simp] theorem setRun_st (r : RunState) (s : State) : (setRun r s).st = s.st := rfl
@[simp] theorem setRun_key (r : RunState) (s : State) : (setRun r s).key = s.key := rfl
@[simp] theorem setRun_fb (r : RunState) (s : State) : (setRun r s).fb = s.fb := rfl
@[simp] theorem setRun_run (r : RunState) (s : State) : (setRun r s).run = r := rfl
@[simp] theorem setRun_fault (r : RunState) (s : State) : (setRun r s).fault = s.fault := rfl
@[simp] theorem setRun_out (r : RunState) (s : State) : (setRun r s).out = s.out := rfl
@[simp] theorem setRun_schedule (r : RunState) (s : State) : (setRun r s).schedule = s.schedule := rfl
@[simp] theorem setRun_draws (r : RunState) (s : State) : (setRun r s).draws = s.draws := rfl
@[simp] theorem getV_setRun (r : RunState) (s : State) (j : Idx) : getV (setRun r s) j = getV s j := rfl
@[simp] theorem getKey_setRun (r : RunState) (s : State) (j : Idx) : getKey (setRun r s) j = getKey s j := rfl

@[simp] theorem latch_mem (f : Fault) (s : State) : (latch f s).mem = s.mem := rfl
@[simp] theorem latch_v (f : Fault) (s : State) : (latch f s).v = s.v := rfl
@[simp] theorem latch_i (f : Fault) (s : State) : (latch f s).i = s.i := rfl
@[simp] theorem latch_pc (f : Fault) (s : State) : (latch f s).pc = s.pc := rfl
@[simp] theorem latch_sp (f : Fault) (s : State) : (latch f s).sp = s.sp := rfl
@[simp] theorem latch_stack (f : Fault) (s : State) : (latch f s).stack = s.stack := rfl
@[simp] theorem latch_dt (f : Fault) (s : State) : (latch f s).dt = s.dt := rfl
@[simp] theorem latch_st (f : Fault) (s : State) : (latch f s).st = s.st := rfl
@[simp] theorem latch_key (f : Fault) (s : State) : (latch f s).key = s.key := rfl
@[simp] theorem latch_fb (f : Fault) (s : State) : (latch f s).fb = s.fb := rfl
@[simp] theorem latch_run (f : Fault) (s : State) : (latch f s).run = s.run := rfl
@[simp] theorem latch_fault (f : Fault) (s : State) : (latch f s).fault = some f := rfl
@[simp] theorem latch_out (f : Fault) (s : State) : (latch f s).out = s.out := rfl
@[simp] theorem latch_schedule (f : Fault) (s : State) : (latch f s).schedule = s.schedule := rfl
@[simp] theorem latch_draws (f : Fault) (s : State) : (latch f s).draws = s.draws := rfl
@[simp] theorem getV_latch (f : Fault) (s : State) (j : Idx) : getV (latch f s) j = getV s j := rfl
@[simp] theorem getKey_latch (f : Fault) (s : State) (j : Idx) : getKey (latch f s) j = getKey s j := rfl

@[simp] theorem emit_mem (e : OutEvent) (s : State) : (emit e s).mem = s.mem := rfl
@[simp] theorem emit_v (e : OutEvent) (s : State) : (emit e s).v = s.v := rfl
@[simp] theorem emit_i (e : OutEvent) (s : State) : (emit e s).i = s.i := rfl
@[simp] theorem emit_pc (e : OutEvent) (s : State) : (emit e s).pc = s.pc := rfl
@[simp] theorem emit_sp (e : OutEvent) (s : State) : (emit e s).sp = s.sp := rfl
@[simp] theorem emit_stack (e : OutEvent) (s : State) : (emit e s).stack = s.stack := rfl
@[simp] theorem emit_dt (e : OutEvent) (s : State) : (emit e s).dt = s.dt := rfl
@[simp] theorem emit_st (e : OutEvent) (s : State) : (emit e s).st = s.st := rfl
@[simp] theorem emit_key (e : OutEvent) (s : State) : (emit e s).key = s.key := rfl
@[simp] theorem emit_fb (e : OutEvent) (s : State) : (emit e s).fb = s.fb := rfl
@[simp] theorem emit_run (e : OutEvent) (s : State) : (emit e s).run = s.run := rfl
@[simp] theorem emit_fault (e : OutEvent) (s : State) : (emit e s).fault = s.fault := rfl
@[simp] theorem emit_out (e : OutEvent) (s : State) : (emit e s).out = s.out ++ [e] := rfl
@[simp] theorem emit_schedule (e : OutEvent) (s : State) : (emit e s).schedule = s.schedule := rfl
@[simp] theorem emit_draws (e : OutEvent) (s : State) : (emit e s).draws = s.draws := rfl
@[simp] theorem getV_emit (e : OutEvent) (s : State) (j : Idx) : getV (emit e s) j = getV s j := rfl
@[simp] theorem getKey_emit (e : OutEvent) (s : State) (j : Idx) : getKey (emit e s) j = getKey s j := rfl

@[simp] theorem setSchedule_mem (ms : List Move) (s : State) : (setSchedule ms s).mem = s.mem := rfl
@[simp] theorem setSchedule_v (ms : List Move) (s : State) : (setSchedule ms s).v = s.v := rfl
@[simp] theorem setSchedule_i (ms : List Move) (s : State) : (setSchedule ms s).i = s.i := rfl
@[simp] theorem setSchedule_pc (ms : List Move) (s : State) : (setSchedule ms s).pc = s.pc := rfl
@[simp] theorem setSchedule_sp (ms : List Move) (s : State) : (setSchedule ms s).sp = s.sp := rfl
@[simp] theorem setSchedule_stack (ms : List Move) (s : State) : (setSchedule ms s).stack = s.stack := rfl
@[simp] theorem setSchedule_dt (ms : List Move) (s : State) : (setSchedule ms s).dt = s.dt := rfl
@[simp] theorem setSchedule_st (ms : List Move) (s : State) : (setSchedule ms s).st = s.st := rfl
@[simp] theorem setSchedule_key (ms : List Move) (s : State) : (setSchedule ms s).key = s.key := rfl
@[simp] theorem setSchedule_fb (ms : List Move) (s : State) : (setSchedule ms s).fb = s.fb := rfl
@[simp] theorem setSchedule_run (ms : List Move) (s : State) : (setSchedule ms s).run = s.run := rfl
@[simp] theorem setSchedule_fault (ms : List Move) (s : State) : (setSchedule ms s).fault = s.fault := rfl
@[simp] theorem setSchedule_out (ms : List Move) (s : State) : (setSchedule ms s).out = s.out := rfl
@[simp] theorem setSchedule_schedule (ms : List Move) (s : State) : (setSchedule ms s).schedule = ms := rfl
@[simp] theorem setSchedule_draws (ms : List Move) (s : State) : (setSchedule ms s).draws = s.draws := rfl
@[simp] theorem getV_setSchedule (ms : List Move) (s : State) (j : Idx) : getV (setSchedule ms s) j = getV s j := rfl
@[simp] theorem getKey_setSchedule (ms : List Move) (s : State) (j : Idx) : getKey (setSchedule ms s) j = getKey s j := rfl

@[simp] theorem setV_mem (x : Idx) (b : Byte) (s : State) : (setV x b s).mem = s.mem := rfl
@[simp] theorem setV_i (x : Idx) (b : Byte) (s : State) : (setV x b s).i = s.i := rfl
@[simp] theorem setV_pc (x : Idx) (b : Byte) (s : State) : (setV x b s).pc = s.pc := rfl
@[simp] theorem setV_sp (x : Idx) (b : Byte) (s : State) : (setV x b s).sp = s.sp := rfl
@[simp] theorem setV_stack (x : Idx) (b : Byte) (s : State) : (setV x b s).stack = s.stack := rfl
@[simp] theorem setV_dt (x : Idx) (b : Byte) (s : State) : (setV x b s).dt = s.dt := rfl
@[simp] theorem setV_st (x : Idx) (b : Byte) (s : State) : (setV x b s).st = s.st := rfl
@[simp] theorem setV_key (x : Idx) (b : Byte) (s : State) : (setV x b s).key = s.key := rfl
@[simp] theorem setV_fb (x : Idx) (b : Byte) (s : State) : (setV x b s).fb = s.fb := rfl
@[simp] theorem setV_run (x : Idx) (b : Byte) (s : State) : (setV x b s).run = s.run := rfl
@[simp] theorem setV_fault (x : Idx) (b : Byte) (s : State) : (setV x b s).fault = s.fault := rfl
@[simp] theorem setV_out (x : Idx) (b : Byte) (s : State) : (setV x b s).out = s.out := rfl
@[simp] theorem setV_schedule (x : Idx) (b : Byte) (s : State) : (setV x b s).schedule = s.schedule := rfl
@[simp] theorem setV_draws (x : Idx) (b : Byte) (s : State) : (setV x b s).draws = s.draws := rfl
@[simp] theorem getKey_setV (x : Idx) (b : Byte) (s : State) (j : Idx) : getKey (setV x b s) j = getKey s j := rfl

@[simp] theorem setVFlag_mem (x : Idx) (r f : Byte) (s : State) : (setVFlag x r f s).mem = s.mem := rfl
@[simp] theorem setVFlag_i (x : Idx) (r f : Byte) (s : State) : (setVFlag x r f s).i = s.i := rfl
@[simp] theorem setVFlag_pc (x : Idx) (r f : Byte) (s : State) : (setVFlag x r f s).pc = s.pc := rfl
@[simp] theorem setVFlag_sp (x : Idx) (r f : Byte) (s : State) : (setVFlag x r f s).sp = s.sp := rfl
@[simp] theorem setVFlag_stack (x : Idx) (r f : Byte) (s : State) : (setVFlag x r f s).stack = s.stack := rfl
@[simp] theorem setVFlag_dt (x : Idx) (r f : Byte) (s : State) : (setVFlag x r f s).dt = s.dt := rfl
@[simp] theorem setVFlag_st (x : Idx) (r f : Byte) (s : State) : (setVFlag x r f s).st = s.st := rfl
@[simp] theorem setVFlag_key (x : Idx) (r f : Byte) (s : State) : (setVFlag x r f s).key = s.key := rfl
@[simp] theorem setVFlag_fb (x : Idx) (r f : Byte) (s : State) : (setVFlag x r f s).fb = s.fb := rfl
@[simp] theorem setVFlag_run (x : Idx) (r f : Byte) (s : State) : (setVFlag x r f s).run = s.run := rfl
@[simp] theorem setVFlag_fault (x : Idx) (r f : Byte) (s : State) : (setVFlag x r f s).fault = s.fault := rfl
@[simp] theorem setVFlag_out (x : Idx) (r f : Byte) (s : State) : (setVFlag x r f s).out = s.out := rfl
@[simp] theorem setVFlag_schedule (x : Idx) (r f : Byte) (s : State) : (setVFlag x r f s).schedule = s.schedule := rfl
@[simp] theorem setVFlag_draws (x : Idx) (r f : Byte) (s : State) : (setVFlag x r f s).draws = s.draws := rfl
@[simp] theorem getKey_setVFlag (x : Idx) (r f : Byte) (s : State) (j : Idx) : getKey (setVFlag x r f s) j = getKey s j := rfl

@[simp] theorem loadRegs_mem (x : Idx) (s : State) : (loadRegs x s).mem = s.mem := rfl
@[simp] theorem loadRegs_i (x : Idx) (s : State) : (loadRegs x s).i = s.i := rfl
@[simp] theorem loadRegs_pc (x : Idx) (s : State) : (loadRegs x s).pc = s.pc := rfl
@[simp] theorem loadRegs_sp (x : Idx) (s : State) : (loadRegs x s).sp = s.sp := rfl
@[simp] theorem loadRegs_stack (x : Idx) (s : State) : (loadRegs x s).stack = s.stack := rfl
@[simp] theorem loadRegs_dt (x : Idx) (s : State) : (loadRegs x s).dt = s.dt := rfl
@[simp] theorem loadRegs_st (x : Idx) (s : State) : (loadRegs x s).st = s.st := rfl
@[simp] theorem loadRegs_key (x : Idx) (s : State) : (loadRegs x s).key = s.key := rfl
@[simp] theorem loadRegs_fb (x : Idx) (s : State) : (loadRegs x s).fb = s.fb := rfl
@[simp] theorem loadRegs_run (x : Idx) (s : State) : (loadRegs x s).run = s.run := rfl
@[simp] theorem loadRegs_fault (x : Idx) (s : State) : (loadRegs x s).fault = s.fault := rfl
@[simp] theorem loadRegs_out (x : Idx) (s : State) : (loadRegs x s).out = s.out := rfl
@[simp] theorem loadRegs_schedule (x : Idx) (s : State) : (loadRegs x s).schedule = s.schedule := rfl
@[simp] theorem loadRegs_draws (x : Idx) (s : State) : (loadRegs x s).draws = s.draws := rfl
@[simp] theorem getKey_loadRegs (x : Idx) (s : State) (j : Idx) : getKey (loadRegs x s) j = getKey s j := rfl

@[simp] theorem emitFrame_mem (s : State) : (emitFrame s).mem = s.mem := rfl
@[simp] theorem emitFrame_v (s : State) : (emitFrame s).v = s.v := rfl
@[simp] theorem emitFrame_i (s : State) : (emitFrame s).i = s.i := rfl
@[simp] theorem emitFrame_pc (s : State) : (emitFrame s).pc = s.pc := rfl
@[simp] theorem emitFrame_sp (s : State) : (emitFrame s).sp = s.sp := rfl
@[simp] theorem emitFrame_stack (s : State) : (emitFrame s).stack = s.stack := rfl
@[simp] theorem emitFrame_dt (s : State) : (emitFrame s).dt = s.dt := rfl
@[simp] theorem emitFrame_st (s : State) : (emitFrame s).st = s.st := rfl
@[simp] theorem emitFrame_key (s : State) : (emitFrame s).key = s.key := rfl
@[simp] theorem emitFrame_fb (s : State) : (emitFrame s).fb = s.fb := rfl
@[simp] theorem emitFrame_run (s : State) : (emitFrame s).run = s.run := rfl
@[simp] theorem emitFrame_fault (s : State) : (emitFrame s).fault = s.fault := rfl
@[simp] theorem emitFrame_out (s : State) : (emitFrame s).out = s.out ++ [.frameReady s.fb] := rfl
@[simp] theorem emitFrame_schedule (s : State) : (emitFrame s).schedule = s.schedule := rfl
@[simp] theorem emitFrame_draws (s : State) : (emitFrame s).draws = s.draws := rfl
@[simp] theorem getV_emitFrame (s : State) (j : Idx) : getV (emitFrame s) j = getV s j := rfl
@[simp] theorem getKey_emitFrame (s : State) (j : Idx) : getKey (emitFrame s) j = getKey s j := rfl

@[simp] theorem setKey_mem (k : Idx) (b : Bool) (s : State) : (setKey k b s).mem = s.mem := rfl
@[simp] theorem setKey_v (k : Idx) (b : Bool) (s : State) : (setKey k b s).v = s.v := rfl
@[simp] theorem setKey_i (k : Idx) (b : Bool) (s : State) : (setKey k b s).i = s.i := rfl
@[simp] theorem setKey_pc (k : Idx) (b : Bool) (s : State) : (setKey k b s).pc = s.pc := rfl
@[simp] theorem setKey_sp (k : Idx) (b : Bool) (s : State) : (setKey k b s).sp = s.sp := rfl
@[simp] theorem setKey_stack (k : Idx) (b : Bool) (s : State) : (setKey k b s).stack = s.stack := rfl
@[simp] theorem setKey_dt (k : Idx) (b : Bool) (s : State) : (setKey k b s).dt = s.dt := rfl
@[simp] theorem setKey_st (k : Idx) (b : Bool) (s : State) : (setKey k b s).st = s.st := rfl
@[simp] theorem setKey_fb (k : Idx) (b : Bool) (s : State) : (setKey k b s).fb = s.fb := rfl
@[simp] theorem setKey_run (k : Idx) (b : Bool) (s : State) : (setKey k b s).run = s.run := rfl
@[simp] theorem setKey_fault (k : Idx) (b : Bool) (s : State) : (setKey k b s).fault = s.fault := rfl
@[simp] theorem setKey_out (k : Idx) (b : Bool) (s : State) : (setKey k b s).out = s.out := rfl
@[simp] theorem setKey_schedule (k : Idx) (b : Bool) (s : State) : (setKey k b s).schedule = s.schedule := rfl
@[simp] theorem setKey_draws (k : Idx) (b : Bool) (s : State) : (setKey k b s).draws = s.draws := rfl
@[simp] theorem getV_setKey (k : Idx) (b : Bool) (s : State) (j : Idx) : getV (setKey k b s) j = getV s j := rfl

@[simp] theorem drawByte_mem (s : State) : (drawByte s).2.mem = s.mem := rfl
@[simp] theorem drawByte_v (s : State) : (drawByte s).2.v = s.v := rfl
@[simp] theorem drawByte_i (s : State) : (drawByte s).2.i = s.i := rfl
@[simp] theorem drawByte_pc (s : State) : (drawByte s).2.pc = s.pc := rfl
@[simp] theorem drawByte_sp (s : State) : (drawByte s).2.sp = s.sp := rfl
@[simp] theorem drawByte_stack (s : State) : (drawByte s).2.stack = s.stack := rfl
@[simp] theorem drawByte_dt (s : State) : (drawByte s).2.dt = s.dt := rfl
@[simp] theorem drawByte_st (s : State) : (drawByte s).2.st = s.st := rfl
@[simp] theorem drawByte_key (s : State) : (drawByte s).2.key = s.key := rfl
@[simp] theorem drawByte_fb (s : State) : (drawByte s).2.fb = s.fb := rfl
@[simp] theorem drawByte_run (s : State) : (drawByte s).2.run = s.run := rfl
@[simp] theorem drawByte_fault (s : State) : (drawByte s).2.fault = s.fault := rfl
@[simp] theorem drawByte_out (s : State) : (drawByte s).2.out = s.out := rfl
@[simp] theorem drawByte_schedule (s : State) : (drawByte s).2.schedule = s.schedule := rfl
@[simp] theorem drawByte_draws (s : State) : (drawByte s).2.draws = s.draws + 1 := rfl
@[simp] theorem getV_drawByte (s : State) (j : Idx) : getV (drawByte s).2 j = getV s j := rfl
@[simp] theorem getKey_drawByte (s : State) (j : Idx) : getKey (drawByte s).2 j = getKey s j := rfl

@[simp] theorem drawByte_value (s : State) : (drawByte s).1 = Config.freeByte s.draws := rfl
@[simp] theorem testAndClear_value (k : Idx) (s : State) : (testAndClear k s).1 = getKey s k := rfl
@[simp] theorem testAndClear_state (k : Idx) (s : State) : (testAndClear k s).2 = setKey k false s := rfl

/-- Reading one place of a vector after writing another. -/
theorem vector_get_set {α : Type} {n : Nat} (v : Vector α n) (j k : Fin n) (a : α) :
    (v.set j.val a j.isLt).get k = if k = j then a else v.get k := by
  simp only [Vector.get_eq_getElem, Vector.getElem_set, Fin.ext_iff, eq_comm]

theorem getV_congr {s t : State} (h : t.v = s.v) (x : Idx) : getV t x = getV s x := by simp [getV, h]

@[simp] theorem getV_setV (x r : Idx) (b : Byte) (s : State) :
    getV (setV x b s) r = if r = x then b else getV s r := vector_get_set s.v x r b

@[simp] theorem getV_setVFlag (x r : Idx) (a f : Byte) (s : State) :
    getV (setVFlag x a f s) r = if r = regF then f else if r = x then a else getV s r := by simp [setVFlag]

@[simp] theorem getV_loadRegs (x r : Idx) (s : State) :
    getV (loadRegs x s) r = if r ≤ x then Memory.read s.mem (s.i.toNat + r.val) else getV s r := by
  simp [getV, loadRegs, Vector.get_eq_getElem]

@[simp] theorem getKey_setKey (k j : Idx) (b : Bool) (s : State) :
    getKey (setKey k b s) j = if j = k then b else getKey s j := vector_get_set s.key k j b


/-- A frame from equal fields: memory equal as data reads the same at every address. -/
theorem unchanged_of {parts : List Part} {regs : List Idx} {s t : State}
    (registers : ∀ r, r ∉ regs → getV t r = getV s r) (memory : Part.memory ∉ parts → t.mem = s.mem)
    (index : Part.index ∉ parts → t.i = s.i) (stack : Part.stack ∉ parts → t.sp = s.sp ∧ t.stack = s.stack)
    (delay : Part.delay ∉ parts → t.dt = s.dt) (sound : Part.sound ∉ parts → t.st = s.st)
    (keys : Part.keys ∉ parts → t.key = s.key) (screen : Part.screen ∉ parts → t.fb = s.fb)
    (log : Part.log ∉ parts → t.out = s.out) (latch : Part.latch ∉ parts → t.fault = s.fault)
    (draws : Part.draws ∉ parts → t.draws = s.draws) (run : t.run = s.run) (schedule : t.schedule = s.schedule) :
    Unchanged parts regs s t :=
  ⟨registers, fun h a => by rw [memory h], index, stack, delay, sound, keys, screen, log, latch, draws, run, schedule⟩

end Sys2Proof.Machine
end

