-- ==== Sys2Proof/Laws/Ops.lean ====
section
/-! SUPPORT. One lemma per shared operation, saying once everything it can answer. -/

namespace Sys2Proof.Machine

theorem raise_eq (f : Fault) (s : State) : raise f s = .next (latch f s) := rfl

theorem jumpTo_eq (a : Word) (s : State) : jumpTo a s = .next (setPc a s) := rfl

theorem advance_eq (s : State) : advance s = .next (setPc (s.pc + 2) s) := rfl

theorem skipIf_eq (c : Bool) (s : State) :
    skipIf c s = .next (setPc (if c then s.pc + 4 else s.pc + 2) s) := rfl

/-- An address immediate keeps its value when it is widened (30_encoding.md R95). -/
@[simp] theorem addrOf_toNat (nnn : Imm12) : (addrOf nnn).toNat = nnn.toNat := by
  have := nnn.isLt
  simp [addrOf]; omega

@[simp] theorem sysWord_toNat (nnn : Imm12) : (sysWord nnn).toNat = nnn.toNat := addrOf_toNat nnn

@[simp] theorem length_digitsOf (b : Byte) : (digitsOf b).length = 3 := rfl

@[simp] theorem length_dumpBytes (x : Idx) (s : State) : (dumpBytes x s).length = x.val + 1 := by
  simp [dumpBytes]

/-- The k-th byte of a register dump is V[k]. -/
theorem getD_dumpBytes (x : Idx) (s : State) (k : Idx) (h : k ≤ x) : (dumpBytes x s).getD k.val 0 = getV s k := by
  simp only [dumpBytes, List.getD_eq_getElem?_getD, List.getElem?_take, getV, Vector.get_eq_getElem]
  rw [if_pos (Nat.lt_succ_of_le h)]
  simp

theorem rangeOk_iff (a n : Nat) : rangeOk a n = true ↔ n = 0 ∨ a + n ≤ 4096 := by
  simp only [rangeOk, Config.memSize, Bool.or_eq_true, decide_eq_true_eq]
  omega

/-- A checked transfer either goes on or takes the AddressFault with nothing else changed. -/
theorem guardRange_cases (a n : Nat) (kind : AccessKind) (s : State) (k : Result) :
    ((n = 0 ∨ a + n ≤ 4096) ∧ guardRange a n kind s k = k) ∨
    (n ≠ 0 ∧ 4096 < a + n ∧
      guardRange a n kind s k = .next (latch (.addressFault (max a 4096) kind) s)) := by
  by_cases h : rangeOk a n
  · exact .inl ⟨(rangeOk_iff a n).1 h, by simp [guardRange, h]⟩
  · refine .inr ⟨?_, ?_, by simp [guardRange, h, raise, rangeFault, Config.memSize]⟩ <;>
      (rw [rangeOk_iff] at h; omega)

theorem guardRange_ok {a n : Nat} (kind : AccessKind) (s : State) (k : Result) (h : n = 0 ∨ a + n ≤ 4096) :
    guardRange a n kind s k = k := by simp [guardRange, (rangeOk_iff a n).2 h]

theorem guardRange_fault {a n : Nat} (kind : AccessKind) (s : State) (k : Result) (hn : n ≠ 0) (h : 4096 < a + n) :
    guardRange a n kind s k = .next (latch (.addressFault (max a 4096) kind) s) := by
  have : rangeOk a n = false := by rw [Bool.eq_false_iff, Ne, rangeOk_iff]; omega
  simp [guardRange, this, raise, rangeFault, Config.memSize]

/-- A call pushes and jumps, or takes StackOverflow with nothing else changed. -/
theorem pushCall_cases (r a : Word) (s : State) :
    (∃ h : s.sp.val < 16, pushCall r a s =
      .next (setPc a (setSp ⟨s.sp.val + 1, by omega⟩ (setStack ⟨s.sp.val, h⟩ r s)))) ∨
    (s.sp.val = 16 ∧ pushCall r a s = .next (latch .stackOverflow s)) := by
  by_cases h : s.sp.val < 16
  · exact .inl ⟨h, by simp [pushCall, h]⟩
  · exact .inr ⟨by omega, by simp [pushCall, h, raise]⟩

/-- A return pops into pc, or takes StackUnderflow with nothing else changed. -/
theorem popReturn_cases (s : State) :
    (s.sp.val ≠ 0 ∧ popReturn s =
      .next (setPc (s.stack.get ⟨s.sp.val - 1, by omega⟩) (setSp ⟨s.sp.val - 1, by omega⟩ s))) ∨
    (s.sp.val = 0 ∧ popReturn s = .next (latch .stackUnderflow s)) := by
  by_cases h : s.sp.val = 0
  · exact .inr ⟨h, by simp [popReturn, h, raise]⟩
  · exact .inl ⟨h, by simp [popReturn, h]⟩

/-- A key instruction tests the slot that its register names, or takes KeyIndexRange with nothing else changed. -/
theorem withKey_cases (x : Idx) (s : State) (k : Bool → Result) :
    (∃ h : (getV s x).toNat < 16, withKey x s k = k (getKey s ⟨(getV s x).toNat, h⟩)) ∨
    (16 ≤ (getV s x).toNat ∧ withKey x s k = .next (latch (.keyIndexRange (getV s x)) s)) := by
  by_cases h : (getV s x).toNat < 16
  · exact .inl ⟨h, by simp [withKey, keyOperand, h]⟩
  · exact .inr ⟨by omega, by simp [withKey, keyOperand, h, raise]⟩

/-- The lowest pressed key is pressed, and no lower one is. -/
theorem lowestKey_some {s : State} {k : Idx} (h : lowestKey s = some k) :
    getKey s k = true ∧ ∀ j : Idx, j < k → getKey s j = false := by
  have e : allKeys = List.finRange 16 := by decide
  rw [lowestKey, e, List.find?_eq_some_iff_getElem] at h
  obtain ⟨hk, n, hn, rfl, hlt⟩ := h
  refine ⟨hk, fun j hj => ?_⟩
  simp only [List.getElem_finRange, Fin.lt_def, Fin.val_cast] at hj
  simpa using hlt j.val hj

theorem lowestKey_none {s : State} (h : lowestKey s = none) (k : Idx) : getKey s k = false := by
  have e : allKeys = List.finRange 16 := by decide
  rw [lowestKey, e, List.find?_eq_none] at h
  simpa using h k (List.mem_finRange k)

/-- The fetch gives the big-endian word at pc, or the lowest address beyond memory. -/
theorem fetch_cases (s : State) :
    (s.pc.toNat ≤ 4094 ∧ fetch s = .ok (wordAt s.mem s.pc.toNat)) ∨
    (4094 < s.pc.toNat ∧ fetch s = .error (.addressFault (max s.pc.toNat 4096) .fetch)) := by
  by_cases h : rangeOk s.pc.toNat 2
  · exact .inl ⟨by rw [rangeOk_iff] at h; omega, by simp [fetch, h]⟩
  · exact .inr ⟨by rw [rangeOk_iff] at h; omega, by simp [fetch, h, rangeFault, Config.memSize]⟩

theorem wordAt_toNat (m : Memory) (a : Nat) :
    (wordAt m a).toNat = (Memory.read m a).toNat * 256 + (Memory.read m (a + 1)).toNat := by
  have h := (Memory.read m (a + 1)).isLt
  rw [wordAt, joinBytes, BitVec.toNat_append, Nat.shiftLeft_eq, Nat.mul_comm, ← Nat.two_pow_add_eq_or_of_lt h,
    Nat.mul_comm]

theorem State.enabled_iff (s : State) : s.enabled = true ↔ s.run = .running ∧ s.fault = none := by
  simp [State.enabled]

/-- With no move scheduled the step is the CPU's. -/
theorem step_of_no_schedule {s : State} (h : s.schedule = []) : step s = cpuStep s := by
  simp [step, nextMove, h, move]

/-- With a move scheduled the step is that move, taken off the schedule. -/
theorem step_of_schedule {s : State} {m : Move} {rest : List Move} (h : s.schedule = m :: rest) :
    step s = move m (setSchedule rest s) := by
  simp [step, nextMove, h]

theorem joinBytes_hi_lo (w : Word) : joinBytes (hiByte w) (loByte w) = w := by
  apply BitVec.eq_of_getLsbD_eq
  intro i hi
  simp only [joinBytes, hiByte, loByte, BitVec.getLsbD_append, BitVec.getLsbD_extractLsb']
  by_cases h : i < 8
  · simp [h]
  · simp only [h, decide_false]
    rw [show 8 + (i - 8) = i by omega]
    simp; omega

end Sys2Proof.Machine
end

