-- ==== Sys2Proof/Laws/Display.lean ====
section
/-! SUPPORT. The framebuffer: reading a pixel after a flip and after a clear. -/

namespace Sys2Proof.Machine

/-- Flipping a pixel changes that pixel and no other. -/
@[simp] theorem getPixel_flipPixel (fb : Framebuffer) (y r : Fin 32) (x c : Fin 64) :
    getPixel (flipPixel fb y x) r c = if r = y ∧ c = x then !getPixel fb y x else getPixel fb r c := by
  simp only [getPixel, flipPixel, vector_get_set]
  by_cases hr : r = y
  · subst hr; by_cases hc : c = x <;> simp [hc, vector_get_set]
  · simp [hr]

@[simp] theorem getPixel_blankScreen (r : Fin 32) (c : Fin 64) : getPixel blankScreen r c = false := by
  simp [getPixel, blankScreen, Vector.get_eq_getElem]

/-- Two framebuffers with the same pixels are equal. -/
theorem framebuffer_ext {a b : Framebuffer} (h : ∀ r c, getPixel a r c = getPixel b r c) : a = b := by
  apply Vector.ext
  intro i hi
  apply Vector.ext
  intro j hj
  exact h ⟨i, hi⟩ ⟨j, hj⟩

theorem originX_eq (b : Byte) : originX b = b.toNat % 64 := by
  simp only [originX, BitVec.toNat_and]
  exact Nat.and_two_pow_sub_one_eq_mod b.toNat 6

theorem originY_eq (b : Byte) : originY b = b.toNat % 32 := by
  simp only [originY, BitVec.toNat_and]
  exact Nat.and_two_pow_sub_one_eq_mod b.toNat 5

end Sys2Proof.Machine
end

