-- ==== Sys2Proof/Laws/Exec.lean ====
section
/-! SUPPORT. What an instruction can do, said once: it latches a fault and changes nothing else, or it has its own effect.
The invariants and frames of all instructions go through this case split. -/

namespace Sys2Proof.Machine

/-- Two next states that are equal outcomes are equal. -/
theorem next_inj {a b : State} (h : (Host.Outcome.next a : Result) = .next b) : a = b := by cases h; rfl

/-- The effect of each instruction when it takes no fault, the values it writes left open where no frame
or invariant needs them. -/
def Effect (i : Instr) (s t : State) : Prop :=
  match i with
  | .cls => t = setPc (s.pc + 2) (emitFrame (setScreen blankScreen s))
  | .ret => ∃ k : Idx, s.sp.val = k.val + 1 ∧ t = setPc (s.stack.get k) (setSp ⟨k.val, by omega⟩ s)
  | .sysNnn _ => False
  | .jmpNnn nnn => t = setPc (addrOf nnn) s
  | .callNnn nnn =>
      ∃ k : Idx, s.sp.val = k.val ∧ t = setPc (addrOf nnn) (setSp ⟨k.val + 1, by omega⟩ (setStack k (s.pc + 2) s))
  | .jmpV0Nnn nnn => t = setPc (indexedTarget nnn s) s
  | .seVxKk _ _ | .sneVxKk _ _ | .seVxVy _ _ | .sneVxVy _ _ | .skpVx _ | .sknpVx _ =>
      t = setPc (s.pc + 2) s ∨ t = setPc (s.pc + 4) s
  | .ldINnn _ | .addIVx _ | .ldFVx _ => ∃ a, t = setPc (s.pc + 2) (setI a s)
  | .ldBVx x =>
      base s + 3 ≤ 4096 ∧ t = setPc (s.pc + 2) (setMem (Memory.writeBytes s.mem (base s) (digitsOf (getV s x))) s)
  | .ldImemVx x =>
      base s + (x.val + 1) ≤ 4096 ∧ t = setPc (s.pc + 2) (setMem (Memory.writeBytes s.mem (base s) (dumpBytes x s)) s)
  | .ldVxImem x => t = setPc (s.pc + 2) (loadRegs x s)
  | .ldDtVx x => t = setPc (s.pc + 2) (setDt (getV s x) s)
  | .ldStVx x => t = setPc (s.pc + 2) (setSt (getV s x) s)
  | .drawVxVyN x y n =>
      t = setPc (s.pc + 2) (emitFrame (setV regF (hitFlag (blit x y n.val s).hit) (setScreen (blit x y n.val s).fb s)))
  | .ldVxK x => t = s ∨ ∃ k, t = setPc (s.pc + 2) (setV x (BitVec.ofNat 8 k.val) (setKey k false s))
  | .rndVxKk x kk => t = setPc (s.pc + 2) (setV x (Config.freeByte s.draws &&& kk) (drawByte s).2)
  | .ldVxKk x _ | .addVxKk x _ | .ldVxVy x _ | .orVxVy x _ | .andVxVy x _ | .xorVxVy x _ | .ldVxDt x =>
      ∃ b, t = setPc (s.pc + 2) (setV x b s)
  | .addVxVy x _ | .subVxVy x _ | .subnVxVy x _ | .shrVx x _ | .shlVx x _ =>
      ∃ b f, t = setPc (s.pc + 2) (setVFlag x b f s)

/-- A skip goes one instruction on or two. -/
theorem skip_cases {c : Bool} {s t : State} (h : skipIf c s = .next t) :
    t = setPc (s.pc + 2) s ∨ t = setPc (s.pc + 4) s := by
  rw [skipIf_eq] at h
  cases c
  · exact .inl (next_inj h).symm
  · exact .inr (next_inj h).symm

/-- A checked transfer that answers a next state has latched its fault, or is in range and has gone on. -/
theorem guard_cases {a n : Nat} {kind : AccessKind} {s t : State} {k : Result} (h : guardRange a n kind s k = .next t) :
    (∃ f, t = latch f s) ∨ ((n = 0 ∨ a + n ≤ 4096) ∧ k = .next t) := by
  rcases guardRange_cases a n kind s k with ⟨hr, e⟩ | ⟨_, _, e⟩
  · exact .inr ⟨hr, e.symm.trans h⟩
  · exact .inl ⟨_, next_inj (h.symm.trans e)⟩

/-- A key skip that answers a next state has latched its fault, or has skipped on some condition. -/
theorem keySkip_cases {x : Idx} {s t : State} {c : Bool → Bool} (h : withKey x s (fun p => skipIf (c p) s) = .next t) :
    (∃ f, t = latch f s) ∨ t = setPc (s.pc + 2) s ∨ t = setPc (s.pc + 4) s := by
  rcases withKey_cases x s (fun p => skipIf (c p) s) with ⟨_, e⟩ | ⟨_, e⟩
  · exact .inr (skip_cases (e.symm.trans h))
  · exact .inl ⟨_, next_inj (h.symm.trans e)⟩

/-- An instruction that answers a next state has latched a fault, nothing else changed, or had its effect. -/
theorem exec_cases {i : Instr} {s t : State} (h : exec i s = .next t) : (∃ f, t = latch f s) ∨ Effect i s t := by
  cases i with
  | ret =>
    rcases popReturn_cases s with ⟨hs, e⟩ | ⟨_, e⟩
    · exact .inr ⟨⟨s.sp.val - 1, by omega⟩, by simp; omega, next_inj (h.symm.trans e)⟩
    · exact .inl ⟨_, next_inj (h.symm.trans e)⟩
  | callNnn nnn =>
    rcases pushCall_cases (s.pc + 2) (addrOf nnn) s with ⟨hs, e⟩ | ⟨_, e⟩
    · exact .inr ⟨⟨s.sp.val, hs⟩, rfl, next_inj (h.symm.trans e)⟩
    · exact .inl ⟨_, next_inj (h.symm.trans e)⟩
  | sysNnn => exact .inl ⟨_, (next_inj h).symm⟩
  | seVxKk | sneVxKk | seVxVy | sneVxVy => exact .inr (skip_cases h)
  | skpVx => exact keySkip_cases (c := id) h
  | sknpVx => exact keySkip_cases (c := not) h
  | ldVxK =>
    simp only [exec, execLdVxK] at h
    split at h
    · exact .inr (.inr ⟨_, (next_inj h).symm⟩)
    · exact .inr (.inl (next_inj h).symm)
  | ldBVx | ldImemVx =>
    exact (guard_cases h).imp id fun ⟨hr, e⟩ => ⟨hr.resolve_left (by simp), (next_inj e).symm⟩
  | ldVxImem | drawVxVyN => exact (guard_cases h).imp id fun ⟨_, e⟩ => (next_inj e).symm
  | cls | jmpNnn | jmpV0Nnn | rndVxKk | ldDtVx | ldStVx => exact .inr (next_inj h).symm
  | addVxVy | subVxVy | subnVxVy | shrVx | shlVx => exact .inr ⟨_, _, (next_inj h).symm⟩
  | _ => exact .inr ⟨_, (next_inj h).symm⟩

/-- A checked transfer answers a next state if what it goes on to does. -/
theorem guard_next {a n : Nat} {kind : AccessKind} {s : State} {k : Result} (h : ∃ t, k = .next t) :
    ∃ t, guardRange a n kind s k = .next t := by
  rcases guardRange_cases a n kind s k with ⟨_, e⟩ | ⟨_, _, e⟩
  · exact h.imp fun _ h => e.trans h
  · exact ⟨_, e⟩

/-- Every instruction answers a next state. -/
theorem exec_next (i : Instr) (s : State) : ∃ t, exec i s = .next t := by
  cases i with
  | ret => rcases popReturn_cases s with ⟨_, e⟩ | ⟨_, e⟩ <;> exact ⟨_, e⟩
  | callNnn nnn => rcases pushCall_cases (s.pc + 2) (addrOf nnn) s with ⟨_, e⟩ | ⟨_, e⟩ <;> exact ⟨_, e⟩
  | ldBVx | ldImemVx | ldVxImem | drawVxVyN => exact guard_next ⟨_, rfl⟩
  | skpVx x => rcases withKey_cases x s (fun p => skipIf p s) with ⟨_, e⟩ | ⟨_, e⟩ <;> exact ⟨_, e⟩
  | sknpVx x => rcases withKey_cases x s (fun p => skipIf (!p) s) with ⟨_, e⟩ | ⟨_, e⟩ <;> exact ⟨_, e⟩
  | ldVxK x => simp only [exec, execLdVxK]; split <;> exact ⟨_, rfl⟩
  | _ => exact ⟨_, rfl⟩

end Sys2Proof.Machine
end

