-- ==== Sys2Proof/Laws/PerInstr.lean ====
section
/-! SUPPORT. A law of every instruction as syntax: some row of the opcode table matches the word its encoder writes, and that
row's extraction rules read the instruction back, every field at every value (30_encoding.md R93, R94, R98). -/

namespace Sys2Proof.Laws.TableReads

/-- The word of `i` is matched by a row that reads it as `i`. -/
def Statement (i : Instr) : Prop :=
  ∃ d ∈ descriptors, d.isMatch (encodeWord i) = true ∧ d.build (encodeWord i) = i

theorem placeX_field (x : Idx) : (placeX x &&& 0x0F00) >>> 8 = BitVec.ofNat 16 x.val := by revert x; decide
theorem placeY_noX (y : Idx) : placeY y &&& 0x0F00 = 0 := by revert y; decide
theorem placeX_noY (x : Idx) : placeX x &&& 0x00F0 = 0 := by revert x; decide
theorem placeY_field (y : Idx) : (placeY y &&& 0x00F0) >>> 4 = BitVec.ofNat 16 y.val := by revert y; decide
theorem placeN_field (n : Fin 16) : placeN n &&& 0x000F = BitVec.ofNat 16 n.val := by revert n; decide
theorem placeX_noN (x : Idx) : placeX x &&& 0x000F = 0 := by revert x; decide
theorem placeY_noN (y : Idx) : placeY y &&& 0x000F = 0 := by revert y; decide
theorem placeN_noX (n : Fin 16) : placeN n &&& 0x0F00 = 0 := by revert n; decide
theorem placeN_noY (n : Fin 16) : placeN n &&& 0x00F0 = 0 := by revert n; decide
theorem placeX_noKK (x : Idx) : placeX x &&& 0x00FF = 0 := by revert x; decide
theorem placeX_noF00F (x : Idx) : placeX x &&& 0xF00F = 0 := by revert x; decide
theorem placeY_noF00F (y : Idx) : placeY y &&& 0xF00F = 0 := by revert y; decide
theorem placeX_noF0FF (x : Idx) : placeX x &&& 0xF0FF = 0 := by revert x; decide
theorem placeX_noF000 (x : Idx) : placeX x &&& 0xF000 = 0 := by revert x; decide
theorem placeY_noF000 (y : Idx) : placeY y &&& 0xF000 = 0 := by revert y; decide
theorem placeN_noF000 (n : Fin 16) : placeN n &&& 0xF000 = 0 := by revert n; decide
theorem placeKK_noF000 (kk : Byte) : placeKK kk &&& 0xF000 = 0 := by revert kk; decide +kernel
theorem placeKK_noX (kk : Byte) : placeKK kk &&& 0x0F00 = 0 := by revert kk; decide +kernel
theorem placeKK_field (kk : Byte) : placeKK kk &&& 0x00FF = placeKK kk := by revert kk; decide +kernel
theorem placeNNN_noF000 (nnn : Imm12) : placeNNN nnn &&& 0xF000 = 0 := by revert nnn; decide +kernel
theorem placeNNN_field (nnn : Imm12) : placeNNN nnn &&& 0x0FFF = placeNNN nnn := by revert nnn; decide +kernel

/-- A mask and a shift act on each of two or-ed words. -/
theorem field_or (a b m : Word) (k : Nat) : ((a ||| b) &&& m) >>> k = ((a &&& m) >>> k) ||| ((b &&& m) >>> k) := by
  apply BitVec.eq_of_getLsbD_eq
  intro i _
  simp [Bool.and_or_distrib_right]

theorem mask_or (a b m : Word) : (a ||| b) &&& m = (a &&& m) ||| (b &&& m) := by simpa using field_or a b m 0

theorem ofNat_idx (x : Fin 16) : Fin.ofNat 16 (BitVec.ofNat 16 x.val).toNat = x := by revert x; decide

theorem zero_shift (k : Nat) : (0 : Word) >>> k = 0 := by simp

theorem zero_or (a : Word) : 0 ||| a = a := by simp

theorem or_zero (a : Word) : a ||| 0 = a := by simp

/-- Field X of a pattern with X in place and two more parts clear of X. -/
theorem fieldX_of {p r : Word} (x : Idx) (hp : p &&& 0x0F00 = 0) (hr : r &&& 0x0F00 = 0) :
    fieldX (p ||| placeX x ||| r) = x := by
  simp only [fieldX, extractField, field_or, placeX_field, hp, hr, zero_shift, zero_or, or_zero,
    ofNat_idx]

theorem fieldX_of' {p : Word} (x : Idx) (hp : p &&& 0x0F00 = 0) : fieldX (p ||| placeX x) = x := by
  simpa using fieldX_of (r := 0) x hp rfl

/-- Field KK of a pattern clear of it. -/
theorem fieldKK_of {p : Word} (x : Idx) (kk : Byte) (hp : p &&& 0x00FF = 0) :
    fieldKK (p ||| placeX x ||| placeKK kk) = kk := by
  simp only [fieldKK, extractField, BitVec.ushiftRight_zero, mask_or, placeX_noKK, placeKK_field, hp, zero_or]
  apply BitVec.eq_of_toNat_eq
  simp [placeKK]
  omega

/-- Field Y of a pattern clear of it. -/
theorem fieldY_of {p r : Word} (x y : Idx) (hp : p &&& 0x00F0 = 0) (hr : r &&& 0x00F0 = 0) :
    fieldY (p ||| placeX x ||| placeY y ||| r) = y := by
  simp only [fieldY, extractField, field_or, placeX_noY, placeY_field, hp, hr, zero_shift, zero_or, or_zero,
    ofNat_idx]

theorem fieldY_of' {p : Word} (x y : Idx) (hp : p &&& 0x00F0 = 0) : fieldY (p ||| placeX x ||| placeY y) = y := by
  simpa using fieldY_of (r := 0) x y hp rfl

/-- Field NNN of a pattern clear of it. -/
theorem fieldNNN_of {p : Word} (nnn : Imm12) (hp : p &&& 0x0FFF = 0) : fieldNNN (p ||| placeNNN nnn) = nnn := by
  simp only [fieldNNN, extractField, BitVec.ushiftRight_zero, mask_or, placeNNN_field, hp, zero_or]
  apply BitVec.eq_of_toNat_eq
  simp [placeNNN]
  omega

/-- Field N of a pattern clear of it. -/
theorem fieldN_of {p : Word} (x y : Idx) (n : Fin 16) (hp : p &&& 0x000F = 0) :
    fieldN (p ||| placeX x ||| placeY y ||| placeN n) = n := by
  simp only [fieldN, extractField, BitVec.ushiftRight_zero, mask_or, placeX_noN, placeY_noN, placeN_field, hp,
    zero_or, ofNat_idx]

/-- A field clear of the mask leaves the masked pattern as it is. -/
theorem pattern_x {p q m : Word} {place : Idx → Word} (b : Idx) (hp : p &&& m = q) (hb : place b &&& m = 0) :
    (p ||| place b) &&& m = q := by simp [mask_or, hp, hb]

/-- A word matches a row whose pattern its own pattern is, when its fields are clear of the mask. -/
theorem match_of {d : Descriptor} {p r : Word} (hp : p &&& d.mask = d.pattern) (hr : r &&& d.mask = 0) :
    d.isMatch (p ||| r) = true := by
  simp [Descriptor.isMatch, mask_or, hp, hr]

theorem or_clear {a b m : Word} (ha : a &&& m = 0) (hb : b &&& m = 0) : (a ||| b) &&& m = 0 := by
  simp [mask_or, ha, hb]

theorem cls : Statement .cls := ⟨descriptors[0], List.getElem_mem _, rfl, rfl⟩

theorem ret : Statement .ret := ⟨descriptors[1], List.getElem_mem _, rfl, rfl⟩

theorem sysNnn (nnn : Imm12) : Statement (.sysNnn nnn) :=
  ⟨descriptors[2], List.getElem_mem _, match_of rfl (placeNNN_noF000 nnn), congrArg Instr.sysNnn (fieldNNN_of nnn rfl)⟩

theorem jmpNnn (nnn : Imm12) : Statement (.jmpNnn nnn) :=
  ⟨descriptors[3], List.getElem_mem _, match_of rfl (placeNNN_noF000 nnn), congrArg Instr.jmpNnn (fieldNNN_of nnn rfl)⟩

theorem callNnn (nnn : Imm12) : Statement (.callNnn nnn) :=
  ⟨descriptors[4], List.getElem_mem _, match_of rfl (placeNNN_noF000 nnn), congrArg Instr.callNnn (fieldNNN_of nnn rfl)⟩

theorem seVxKk (x : Idx) (kk : Byte) : Statement (.seVxKk x kk) :=
  ⟨descriptors[5], List.getElem_mem _,
    match_of (pattern_x x rfl (placeX_noF000 x)) (placeKK_noF000 kk),
    congrArg₂ Instr.seVxKk (fieldX_of x rfl (placeKK_noX kk)) (fieldKK_of x kk rfl)⟩

theorem sneVxKk (x : Idx) (kk : Byte) : Statement (.sneVxKk x kk) :=
  ⟨descriptors[6], List.getElem_mem _,
    match_of (pattern_x x rfl (placeX_noF000 x)) (placeKK_noF000 kk),
    congrArg₂ Instr.sneVxKk (fieldX_of x rfl (placeKK_noX kk)) (fieldKK_of x kk rfl)⟩

theorem seVxVy (x y : Idx) : Statement (.seVxVy x y) :=
  ⟨descriptors[7], List.getElem_mem _,
    match_of (pattern_x x rfl (placeX_noF00F x)) (placeY_noF00F y),
    congrArg₂ Instr.seVxVy (fieldX_of x rfl (placeY_noX y)) (fieldY_of' x y rfl)⟩

theorem ldVxKk (x : Idx) (kk : Byte) : Statement (.ldVxKk x kk) :=
  ⟨descriptors[8], List.getElem_mem _,
    match_of (pattern_x x rfl (placeX_noF000 x)) (placeKK_noF000 kk),
    congrArg₂ Instr.ldVxKk (fieldX_of x rfl (placeKK_noX kk)) (fieldKK_of x kk rfl)⟩

theorem addVxKk (x : Idx) (kk : Byte) : Statement (.addVxKk x kk) :=
  ⟨descriptors[9], List.getElem_mem _,
    match_of (pattern_x x rfl (placeX_noF000 x)) (placeKK_noF000 kk),
    congrArg₂ Instr.addVxKk (fieldX_of x rfl (placeKK_noX kk)) (fieldKK_of x kk rfl)⟩

theorem ldVxVy (x y : Idx) : Statement (.ldVxVy x y) :=
  ⟨descriptors[10], List.getElem_mem _,
    match_of (pattern_x x rfl (placeX_noF00F x)) (placeY_noF00F y),
    congrArg₂ Instr.ldVxVy (fieldX_of x rfl (placeY_noX y)) (fieldY_of' x y rfl)⟩

theorem orVxVy (x y : Idx) : Statement (.orVxVy x y) :=
  ⟨descriptors[11], List.getElem_mem _,
    match_of (pattern_x x rfl (placeX_noF00F x)) (placeY_noF00F y),
    congrArg₂ Instr.orVxVy (fieldX_of x rfl (placeY_noX y)) (fieldY_of' x y rfl)⟩

theorem andVxVy (x y : Idx) : Statement (.andVxVy x y) :=
  ⟨descriptors[12], List.getElem_mem _,
    match_of (pattern_x x rfl (placeX_noF00F x)) (placeY_noF00F y),
    congrArg₂ Instr.andVxVy (fieldX_of x rfl (placeY_noX y)) (fieldY_of' x y rfl)⟩

theorem xorVxVy (x y : Idx) : Statement (.xorVxVy x y) :=
  ⟨descriptors[13], List.getElem_mem _,
    match_of (pattern_x x rfl (placeX_noF00F x)) (placeY_noF00F y),
    congrArg₂ Instr.xorVxVy (fieldX_of x rfl (placeY_noX y)) (fieldY_of' x y rfl)⟩

theorem addVxVy (x y : Idx) : Statement (.addVxVy x y) :=
  ⟨descriptors[14], List.getElem_mem _,
    match_of (pattern_x x rfl (placeX_noF00F x)) (placeY_noF00F y),
    congrArg₂ Instr.addVxVy (fieldX_of x rfl (placeY_noX y)) (fieldY_of' x y rfl)⟩

theorem subVxVy (x y : Idx) : Statement (.subVxVy x y) :=
  ⟨descriptors[15], List.getElem_mem _,
    match_of (pattern_x x rfl (placeX_noF00F x)) (placeY_noF00F y),
    congrArg₂ Instr.subVxVy (fieldX_of x rfl (placeY_noX y)) (fieldY_of' x y rfl)⟩

theorem shrVx (x y : Idx) : Statement (.shrVx x y) :=
  ⟨descriptors[16], List.getElem_mem _,
    match_of (pattern_x x rfl (placeX_noF00F x)) (placeY_noF00F y),
    congrArg₂ Instr.shrVx (fieldX_of x rfl (placeY_noX y)) (fieldY_of' x y rfl)⟩

theorem subnVxVy (x y : Idx) : Statement (.subnVxVy x y) :=
  ⟨descriptors[17], List.getElem_mem _,
    match_of (pattern_x x rfl (placeX_noF00F x)) (placeY_noF00F y),
    congrArg₂ Instr.subnVxVy (fieldX_of x rfl (placeY_noX y)) (fieldY_of' x y rfl)⟩

theorem shlVx (x y : Idx) : Statement (.shlVx x y) :=
  ⟨descriptors[18], List.getElem_mem _,
    match_of (pattern_x x rfl (placeX_noF00F x)) (placeY_noF00F y),
    congrArg₂ Instr.shlVx (fieldX_of x rfl (placeY_noX y)) (fieldY_of' x y rfl)⟩

theorem sneVxVy (x y : Idx) : Statement (.sneVxVy x y) :=
  ⟨descriptors[19], List.getElem_mem _,
    match_of (pattern_x x rfl (placeX_noF00F x)) (placeY_noF00F y),
    congrArg₂ Instr.sneVxVy (fieldX_of x rfl (placeY_noX y)) (fieldY_of' x y rfl)⟩

theorem ldINnn (nnn : Imm12) : Statement (.ldINnn nnn) :=
  ⟨descriptors[20], List.getElem_mem _, match_of rfl (placeNNN_noF000 nnn), congrArg Instr.ldINnn (fieldNNN_of nnn rfl)⟩

theorem jmpV0Nnn (nnn : Imm12) : Statement (.jmpV0Nnn nnn) :=
  ⟨descriptors[21], List.getElem_mem _, match_of rfl (placeNNN_noF000 nnn), congrArg Instr.jmpV0Nnn (fieldNNN_of nnn rfl)⟩

theorem rndVxKk (x : Idx) (kk : Byte) : Statement (.rndVxKk x kk) :=
  ⟨descriptors[22], List.getElem_mem _,
    match_of (pattern_x x rfl (placeX_noF000 x)) (placeKK_noF000 kk),
    congrArg₂ Instr.rndVxKk (fieldX_of x rfl (placeKK_noX kk)) (fieldKK_of x kk rfl)⟩

theorem drawVxVyN (x y : Idx) (n : Fin 16) : Statement (.drawVxVyN x y n) := by
  refine ⟨descriptors[23], List.getElem_mem _, ?_, ?_⟩
  · exact match_of (pattern_x y (pattern_x x rfl (placeX_noF000 x)) (placeY_noF000 y)) (placeN_noF000 n)
  · have e : encodeWord (.drawVxVyN x y n) = 0xD000 ||| placeX x ||| (placeY y ||| placeN n) := BitVec.or_assoc ..
    have hx := fieldX_of (p := 0xD000) x rfl (or_clear (placeY_noX y) (placeN_noX n))
    rw [← e] at hx
    exact congr (congrArg₂ Instr.drawVxVyN hx (fieldY_of x y rfl (placeN_noY n))) (fieldN_of x y n rfl)

theorem skpVx (x : Idx) : Statement (.skpVx x) :=
  ⟨descriptors[24], List.getElem_mem _, match_of rfl (placeX_noF0FF x), congrArg Instr.skpVx (fieldX_of' x rfl)⟩

theorem sknpVx (x : Idx) : Statement (.sknpVx x) :=
  ⟨descriptors[25], List.getElem_mem _, match_of rfl (placeX_noF0FF x), congrArg Instr.sknpVx (fieldX_of' x rfl)⟩

theorem ldVxDt (x : Idx) : Statement (.ldVxDt x) :=
  ⟨descriptors[26], List.getElem_mem _, match_of rfl (placeX_noF0FF x), congrArg Instr.ldVxDt (fieldX_of' x rfl)⟩

theorem ldVxK (x : Idx) : Statement (.ldVxK x) :=
  ⟨descriptors[27], List.getElem_mem _, match_of rfl (placeX_noF0FF x), congrArg Instr.ldVxK (fieldX_of' x rfl)⟩

theorem ldDtVx (x : Idx) : Statement (.ldDtVx x) :=
  ⟨descriptors[28], List.getElem_mem _, match_of rfl (placeX_noF0FF x), congrArg Instr.ldDtVx (fieldX_of' x rfl)⟩

theorem ldStVx (x : Idx) : Statement (.ldStVx x) :=
  ⟨descriptors[29], List.getElem_mem _, match_of rfl (placeX_noF0FF x), congrArg Instr.ldStVx (fieldX_of' x rfl)⟩

theorem addIVx (x : Idx) : Statement (.addIVx x) :=
  ⟨descriptors[30], List.getElem_mem _, match_of rfl (placeX_noF0FF x), congrArg Instr.addIVx (fieldX_of' x rfl)⟩

theorem ldFVx (x : Idx) : Statement (.ldFVx x) :=
  ⟨descriptors[31], List.getElem_mem _, match_of rfl (placeX_noF0FF x), congrArg Instr.ldFVx (fieldX_of' x rfl)⟩

theorem ldBVx (x : Idx) : Statement (.ldBVx x) :=
  ⟨descriptors[32], List.getElem_mem _, match_of rfl (placeX_noF0FF x), congrArg Instr.ldBVx (fieldX_of' x rfl)⟩

theorem ldImemVx (x : Idx) : Statement (.ldImemVx x) :=
  ⟨descriptors[33], List.getElem_mem _, match_of rfl (placeX_noF0FF x), congrArg Instr.ldImemVx (fieldX_of' x rfl)⟩

theorem ldVxImem (x : Idx) : Statement (.ldVxImem x) :=
  ⟨descriptors[34], List.getElem_mem _, match_of rfl (placeX_noF0FF x), congrArg Instr.ldVxImem (fieldX_of' x rfl)⟩

end Sys2Proof.Laws.TableReads
end

