-- ==== Sys2Proof/Tests/Slice0.lean ====
section
/-! SUPPORT. Tests: ill-formed instructions refused, one word written out from 30_encoding.md R92 and R98 for every constructor,
steps whose expected results are the vectors of 95_test_vectors.md (named in each comment), and for every statement with
hypotheses a witness that meets them, at the boundary of each clause. -/

namespace Sys2Proof.Tests

open Sys2Proof.Machine

/-! ## Helpers -/

/-- The answer is a next state with the property. -/
def nextIs (o : Result) (p : State → Bool) : Bool :=
  match o with
  | .next t => p t
  | .fault _ => false
  | .refused _ => false

/-- One step of the word `w` placed at pc. -/
def run1 (w : Nat) (s : State) : Result := step (s.withFetchWord 16 w)

/-- Registers given by number. -/
def regs (l : List (Idx × Byte)) (s : State) : State := l.foldl (fun u p => setV p.1 p.2 u) s

/-- Bytes of memory from an address on. -/
def bytesAt (a : Nat) (bs : List Byte) (s : State) : State := setMem (Memory.writeBytes s.mem a bs) s

/-- A pixel by column and row, as the vectors write them. -/
def px (s : State) (x : Fin 64) (y : Fin 32) : Bool := getPixel s.fb y x

/-- A pixel turned over. -/
def flip (x : Fin 64) (y : Fin 32) (s : State) : State := setScreen (flipPixel s.fb y x) s

/-- How many pixels are on. -/
def lit (s : State) : Nat := (s.fb.toList.map fun row => row.toList.countP id).sum

/-- The entry state of 70_reset_and_hazards.md R266. -/
def s0 : State := State.reset

/-! ## Well-formedness: the two words that are CLS and RET are no SYS_NNN (41_control_flow.md R140) -/

theorem test_wellFormed_refuses_sys_00E0 : (Instr.sysNnn 0x0E0).wellFormed = false := by decide
theorem test_wellFormed_refuses_sys_00EE : (Instr.sysNnn 0x0EE).wellFormed = false := by decide
theorem test_wellFormed_allows_their_neighbours :
    (Instr.sysNnn 0x0DF).wellFormed = true ∧ (Instr.sysNnn 0x0E1).wellFormed = true ∧
    (Instr.sysNnn 0x0ED).wellFormed = true ∧ (Instr.sysNnn 0x0EF).wellFormed = true := by decide

/-! ## Decoding: one word for each constructor, its bits written out from the pattern and the fields' places -/

theorem test_decode_cls : decodeWord 0b0000_0000_1110_0000 = some .cls := by decide
theorem test_decode_ret : decodeWord 0b0000_0000_1110_1110 = some .ret := by decide
theorem test_decode_sysNnn : decodeWord 0b0000_0000_1110_0001 = some (.sysNnn 0x0E1) := by decide
theorem test_decode_jmpNnn : decodeWord 0b0001_0010_0011_0100 = some (.jmpNnn 0x234) := by decide
theorem test_decode_callNnn : decodeWord 0b0010_1010_1011_1100 = some (.callNnn 0xABC) := by decide
theorem test_decode_seVxKk : decodeWord 0b0011_0001_0000_1001 = some (.seVxKk 1 0x09) := by decide
theorem test_decode_sneVxKk : decodeWord 0b0100_1110_1000_0001 = some (.sneVxKk 14 0x81) := by decide
theorem test_decode_seVxVy : decodeWord 0b0101_0001_0010_0000 = some (.seVxVy 1 2) := by decide
theorem test_decode_ldVxKk : decodeWord 0b0110_1010_1111_1111 = some (.ldVxKk 10 0xFF) := by decide
theorem test_decode_addVxKk : decodeWord 0b0111_1111_0000_0011 = some (.addVxKk 15 0x03) := by decide
theorem test_decode_ldVxVy : decodeWord 0b1000_0001_0010_0000 = some (.ldVxVy 1 2) := by decide
theorem test_decode_orVxVy : decodeWord 0b1000_0011_0100_0001 = some (.orVxVy 3 4) := by decide
theorem test_decode_andVxVy : decodeWord 0b1000_0101_0110_0010 = some (.andVxVy 5 6) := by decide
theorem test_decode_xorVxVy : decodeWord 0b1000_0111_1000_0011 = some (.xorVxVy 7 8) := by decide
theorem test_decode_addVxVy : decodeWord 0b1000_1010_1011_0100 = some (.addVxVy 10 11) := by decide
theorem test_decode_subVxVy : decodeWord 0b1000_1100_1101_0101 = some (.subVxVy 12 13) := by decide
theorem test_decode_shrVx : decodeWord 0b1000_0001_0010_0110 = some (.shrVx 1 2) := by decide
theorem test_decode_subnVxVy : decodeWord 0b1000_1110_1111_0111 = some (.subnVxVy 14 15) := by decide
theorem test_decode_shlVx : decodeWord 0b1000_0011_0000_1110 = some (.shlVx 3 0) := by decide
theorem test_decode_sneVxVy : decodeWord 0b1001_0001_0010_0000 = some (.sneVxVy 1 2) := by decide
theorem test_decode_ldINnn : decodeWord 0b1010_0011_0000_0000 = some (.ldINnn 0x300) := by decide
theorem test_decode_jmpV0Nnn : decodeWord 0b1011_1111_1111_1111 = some (.jmpV0Nnn 0xFFF) := by decide
theorem test_decode_rndVxKk : decodeWord 0b1100_0001_0000_1111 = some (.rndVxKk 1 0x0F) := by decide
theorem test_decode_drawVxVyN : decodeWord 0b1101_0001_0010_1111 = some (.drawVxVyN 1 2 15) := by decide
theorem test_decode_skpVx : decodeWord 0b1110_0001_1001_1110 = some (.skpVx 1) := by decide
theorem test_decode_sknpVx : decodeWord 0b1110_0010_1010_0001 = some (.sknpVx 2) := by decide
theorem test_decode_ldVxDt : decodeWord 0b1111_0011_0000_0111 = some (.ldVxDt 3) := by decide
theorem test_decode_ldVxK : decodeWord 0b1111_0100_0000_1010 = some (.ldVxK 4) := by decide
theorem test_decode_ldDtVx : decodeWord 0b1111_0101_0001_0101 = some (.ldDtVx 5) := by decide
theorem test_decode_ldStVx : decodeWord 0b1111_0110_0001_1000 = some (.ldStVx 6) := by decide
theorem test_decode_addIVx : decodeWord 0b1111_0111_0001_1110 = some (.addIVx 7) := by decide
theorem test_decode_ldFVx : decodeWord 0b1111_1000_0010_1001 = some (.ldFVx 8) := by decide
theorem test_decode_ldBVx : decodeWord 0b1111_1001_0011_0011 = some (.ldBVx 9) := by decide
theorem test_decode_ldImemVx : decodeWord 0b1111_1010_0101_0101 = some (.ldImemVx 10) := by decide
theorem test_decode_ldVxImem : decodeWord 0b1111_1011_0110_0101 = some (.ldVxImem 11) := by decide

/-- V-DEC-9 to V-DEC-18. -/
theorem test_decode_illegal :
    [0x5121, 0x500F, 0x8128, 0x812F, 0x9121, 0xE100, 0xE19F, 0xF100, 0xF11F, 0xFFFF].all
      (fun w => decodeWord w == none) = true := by decide

/-- A word on its own is an instruction; one byte is not (R91). -/
theorem test_decode_bytes :
    decode [0x12, 0x34, 0x56] = .ok (.jmpNnn 0x234) [0x56] ∧ decode [0x12] = .error .truncated ∧
    decode [0x51, 0x21] = .error (.unrecognizedOpcode 0x5121) := by decide

/-! ## Steps: arithmetic and logic (part 2.2) -/

/-- V-LD-1 -/
theorem test_ldVxKk : nextIs (run1 0x6A7F s0) (fun t => getV t 10 == 0x7F && t.pc == 0x202) = true := by decide
/-- V-ADDK-1 -/
theorem test_addVxKk_wraps : nextIs (run1 0x7101 (regs [(1, 0xFF), (15, 0x55)] s0))
    (fun t => getV t 1 == 0x00 && getV t 15 == 0x55 && t.pc == 0x202) = true := by decide
/-- V-MOV-1 -/
theorem test_ldVxVy :
    nextIs (run1 0x8120 (regs [(2, 0x9C)] s0)) (fun t => getV t 1 == 0x9C && getV t 2 == 0x9C) = true := by decide
/-- V-OR-1 -/
theorem test_orVxVy : nextIs (run1 0x8121 (regs [(1, 0xF0), (2, 0x0F), (15, 1)] s0))
    (fun t => getV t 1 == 0xFF && getV t 15 == 1) = true := by decide
/-- V-AND-1 -/
theorem test_andVxVy : nextIs (run1 0x8122 (regs [(1, 0xF0), (2, 0x3C), (15, 1)] s0))
    (fun t => getV t 1 == 0x30 && getV t 15 == 1) = true := by decide
/-- V-XOR-1 -/
theorem test_xorVxVy : nextIs (run1 0x8123 (regs [(1, 0xFF), (2, 0x0F), (15, 1)] s0))
    (fun t => getV t 1 == 0xF0 && getV t 15 == 1) = true := by decide
/-- V-ADD-1, the spec's S1 -/
theorem test_addVxVy_carries : nextIs (run1 0x8014 (regs [(0, 0xFF), (1, 0x01)] s0))
    (fun t => getV t 0 == 0x00 && getV t 15 == 1) = true := by decide
/-- V-ADD-5: the operand is the old VF -/
theorem test_addVxVy_reads_VF : nextIs (run1 0x81F4 (regs [(1, 0xFF), (15, 0x02)] s0))
    (fun t => getV t 1 == 0x01 && getV t 15 == 1) = true := by decide
/-- V-SUB-1, the spec's S2 -/
theorem test_subVxVy_wraps : nextIs (run1 0x8015 (regs [(0, 0x05), (1, 0x0A)] s0))
    (fun t => getV t 0 == 0xFB && getV t 15 == 0) = true := by decide
/-- V-SUB-3: equal operands -/
theorem test_subVxVy_equal : nextIs (run1 0x8015 (regs [(0, 0x07), (1, 0x07), (15, 1)] s0))
    (fun t => getV t 0 == 0x00 && getV t 15 == 0) = true := by decide
/-- V-SHR-2: Y is ignored -/
theorem test_shrVx : nextIs (run1 0x8126 (regs [(1, 0x04), (2, 0x81), (15, 1)] s0))
    (fun t => getV t 1 == 0x02 && getV t 2 == 0x81 && getV t 15 == 0) = true := by decide
/-- V-SHR-3: the flag overwrites the shifted value -/
theorem test_shrVx_VF : nextIs (run1 0x8F06 (regs [(15, 0x03)] s0)) (fun t => getV t 15 == 0x01) = true := by decide
/-- V-SUBN-1 -/
theorem test_subnVxVy : nextIs (run1 0x8017 (regs [(0, 0x05), (1, 0x0A)] s0))
    (fun t => getV t 0 == 0x05 && getV t 15 == 1) = true := by decide
/-- V-SUBN-2 -/
theorem test_subnVxVy_wraps : nextIs (run1 0x8017 (regs [(0, 0x0A), (1, 0x05), (15, 1)] s0))
    (fun t => getV t 0 == 0xFB && getV t 15 == 0) = true := by decide
/-- V-SHL-1: the flag is 0x80, not 1 -/
theorem test_shlVx :
    nextIs (run1 0x830E (regs [(3, 0x81)] s0)) (fun t => getV t 3 == 0x02 && getV t 15 == 0x80) = true := by decide
/-- V-SHL-4: the flag overwrites the shifted value -/
theorem test_shlVx_VF : nextIs (run1 0x8F0E (regs [(15, 0x40)] s0)) (fun t => getV t 15 == 0x00) = true := by decide
/-- V-RND-2: with KK = 0 the result is 0 for every random byte -/
theorem test_rndVxKk_zero :
    nextIs (exec (.rndVxKk 1 0) (regs [(1, 0x77)] s0)) (fun t => getV t 1 == 0 && t.pc == 0x202) = true := by
  have h : Config.freeByte s0.draws &&& 0 = 0 := BitVec.and_zero
  change (getV (setPc _ (setV 1 (Config.freeByte s0.draws &&& 0) _)) 1 == 0 && (s0.pc + 2 == 0x202)) = true
  rw [h]
  decide

/-! ## Steps: control transfer (part 2.3) -/

/-- V-JMP-1 -/
theorem test_jmpNnn : nextIs (run1 0x1234 s0) (fun t => t.pc == 0x234) = true := by decide
/-- V-CALL-1 -/
theorem test_callNnn : nextIs (run1 0x2210 (setPc 0x204 s0))
    (fun t => t.stack.get 0 == 0x206 && t.sp == 1 && t.pc == 0x210) = true := by decide
/-- V-CALL-2: the 17th call -/
theorem test_callNnn_overflow : nextIs (run1 0x2200 (setSp 16 s0))
    (fun t => t.fault == some .stackOverflow && t.pc == 0x200 && t.sp == 16) = true := by decide
/-- V-RET-1 -/
theorem test_ret : nextIs (run1 0x00EE (setSp 1 (setStack 0 0x206 s0)))
    (fun t => t.sp == 0 && t.pc == 0x206 && t.stack.get 0 == 0x206) = true := by decide
/-- V-RET-2 -/
theorem test_ret_underflow :
    nextIs (run1 0x00EE s0) (fun t => t.fault == some .stackUnderflow && t.pc == 0x200) = true := by decide
/-- V-SE-1 -/
theorem test_seVxKk_skips : nextIs (run1 0x3100 (setPc 0x208 s0)) (fun t => t.pc == 0x20C) = true := by decide
/-- V-SE-2 -/
theorem test_seVxKk_goes_on :
    nextIs (run1 0x3100 (setPc 0x208 (regs [(1, 9)] s0))) (fun t => t.pc == 0x20A) = true := by decide
/-- V-SNE-1 -/
theorem test_sneVxKk_goes_on :
    nextIs (run1 0x4105 (setPc 0x300 (regs [(1, 5)] s0))) (fun t => t.pc == 0x302) = true := by decide
/-- V-SNE-2 -/
theorem test_sneVxKk_skips :
    nextIs (run1 0x4105 (setPc 0x300 (regs [(1, 6)] s0))) (fun t => t.pc == 0x304) = true := by decide
/-- V-SEV-1 -/
theorem test_seVxVy_skips :
    nextIs (run1 0x5120 (regs [(1, 0x33), (2, 0x33)] s0)) (fun t => t.pc == 0x204) = true := by decide
/-- V-SEV-2 -/
theorem test_seVxVy_goes_on :
    nextIs (run1 0x5120 (regs [(1, 0x33), (2, 0x34)] s0)) (fun t => t.pc == 0x202) = true := by decide
/-- V-SNEV-1 -/
theorem test_sneVxVy_skips :
    nextIs (run1 0x9120 (regs [(1, 1), (2, 2)] s0)) (fun t => t.pc == 0x204) = true := by decide
/-- V-SNEV-3 -/
theorem test_sneVxVy_same : nextIs (run1 0x9110 (regs [(1, 2)] s0)) (fun t => t.pc == 0x202) = true := by decide
/-- V-JV0-2, first step: no wrap, no mask -/
theorem test_jmpV0Nnn_beyond : nextIs (run1 0xBFFF (regs [(0, 0xFF)] s0)) (fun t => t.pc == 0x10FE) = true := by decide
/-- V-JV0-3: the register is V0 -/
theorem test_jmpV0Nnn_uses_V0 :
    nextIs (run1 0xB300 (regs [(0, 4), (3, 0x55)] s0)) (fun t => t.pc == 0x304) = true := by decide
/-- V-SYS-2 -/
theorem test_sysNnn :
    nextIs (run1 0x0123 s0) (fun t => t.fault == some (.sysUnsupported 0x0123) && t.pc == 0x200) = true := by decide
/-- V-ILL-1 -/
theorem test_illegal_word :
    nextIs (run1 0x5121 s0) (fun t => t.fault == some (.unrecognizedOpcode 0x5121) && t.pc == 0x200) = true := by decide
/-- V-JMP-2, second step -/
theorem test_fetch_at_4095 : nextIs (step (setPc 0xFFF s0))
    (fun t => t.fault == some (.addressFault 0x1000 .fetch) && t.pc == 0xFFF) = true := by decide

/-! ## Steps: index register and memory (part 2.4) -/

/-- V-LDI-2 -/
theorem test_ldINnn : nextIs (run1 0xAFFF s0) (fun t => t.i == 0x0FFF && t.pc == 0x202) = true := by decide
/-- V-ADDI-2 -/
theorem test_addIVx_wraps : nextIs (run1 0xF11E (setI 0xFFFF (regs [(1, 1), (15, 7)] s0)))
    (fun t => t.i == 0 && getV t 15 == 7) = true := by decide
/-- V-ADDI-3 -/
theorem test_addIVx_no_mask : nextIs (run1 0xF11E (setI 0x0FFF (regs [(1, 1)] s0)))
    (fun t => t.i == 0x1000 && t.fault == none) = true := by decide
/-- V-LDF-2 -/
theorem test_ldFVx : nextIs (run1 0xF129 (regs [(1, 0x0F)] s0)) (fun t => t.i == 0x004B) = true := by decide
/-- V-LDF-4 -/
theorem test_ldFVx_no_mask : nextIs (run1 0xF129 (regs [(1, 0xFF)] s0)) (fun t => t.i == 0x04FB) = true := by decide
/-- V-BCD-5 -/
theorem test_ldBVx_top : nextIs (run1 0xF133 (setI 0xFFD (regs [(1, 0x7B)] s0)))
    (fun t => Memory.readBytes t.mem 0xFFD 3 == [1, 2, 3] && t.i == 0xFFD && t.pc == 0x202) = true := by decide
/-- V-BCD-6 -/
theorem test_ldBVx_beyond : nextIs (run1 0xF133 (setI 0xFFE (regs [(1, 0x7B)] s0)))
    (fun t => t.fault == some (.addressFault 0x1000 .write) && Memory.readBytes t.mem 0xFFE 2 == [0, 0]) = true := by decide
/-- V-DUMP-1 -/
theorem test_ldImemVx :
    nextIs (run1 0xF355 (setI 0x300 (regs [(0, 0x11), (1, 0x22), (2, 0x33), (3, 0x44), (4, 0x55)] s0)))
    (fun t => Memory.readBytes t.mem 0x300 6 == [0x11, 0x22, 0x33, 0x44, 0, 0] && t.i == 0x300) = true := by decide
/-- V-DUMP-3 -/
theorem test_ldImemVx_beyond : nextIs (run1 0xF355 (setI 0xFFD (regs [(0, 0x11), (1, 0x22)] s0)))
    (fun t => t.fault == some (.addressFault 0x1000 .write) && Memory.readBytes t.mem 0xFFD 3 == [0, 0, 0]) = true := by decide
/-- V-LOAD-1 -/
theorem test_ldVxImem : nextIs (run1 0xF265 (setI 0x300 (bytesAt 0x300 [0, 5, 5, 9] (regs [(3, 0x77)] s0))))
    (fun t => getV t 0 == 0 && getV t 1 == 5 && getV t 2 == 5 && getV t 3 == 0x77 && t.i == 0x300) = true := by decide
/-- V-LOAD-4: 16 font bytes, VF loaded as a register -/
theorem test_ldVxImem_all : nextIs (run1 0xFF65 s0) (fun t => t.v.toList ==
    [0xF0, 0x90, 0x90, 0x90, 0xF0, 0x20, 0x60, 0x20, 0x20, 0x70, 0xF0, 0x10, 0xF0, 0x80, 0xF0, 0xF0]) = true := by decide

/-! ## Steps: timers, keys, display (parts 2.5 to 2.7) -/

/-- V-TMR-1 -/
theorem test_ldVxDt :
    nextIs (run1 0xF107 (setDt 0x2A s0)) (fun t => getV t 1 == 0x2A && t.dt == 0x2A) = true := by decide
/-- V-TMR-2 -/
theorem test_ldDtVx :
    nextIs (run1 0xF115 (regs [(1, 0x3C)] s0)) (fun t => t.dt == 0x3C && t.st == 0) = true := by decide
/-- V-TMR-3 -/
theorem test_ldStVx :
    nextIs (run1 0xF118 (regs [(1, 0x05)] s0)) (fun t => t.st == 0x05 && t.dt == 0) = true := by decide
/-- V-TICK-3 and V-TICK-2, scheduled as the next move -/
theorem test_tick : nextIs (step (setSchedule [.tick] (setDt 0xFF (setSt 2 s0))))
    (fun t => t.dt == 0xFE && t.st == 1 && t.pc == 0x200 && t.schedule == []) = true ∧
    nextIs (step (setSchedule [.tick] s0)) (fun t => t.dt == 0 && t.st == 0) = true := by decide
/-- V-TICK-5 -/
theorem test_tick_faulted : (tick (latch (.sysUnsupported 0) (setDt 5 s0))).dt = 5 := by decide
/-- V-SKP-1 -/
theorem test_skpVx :
    nextIs (run1 0xE19E (setKey 7 true (regs [(1, 7)] s0))) (fun t => t.pc == 0x204 && getKey t 7) = true := by decide
/-- V-SKP-3 -/
theorem test_skpVx_range : nextIs (run1 0xE19E (regs [(1, 0x10)] s0))
    (fun t => t.fault == some (.keyIndexRange 0x10) && t.pc == 0x200) = true := by decide
/-- V-SKNP-1 -/
theorem test_sknpVx : nextIs (run1 0xE1A1 (regs [(1, 7)] s0)) (fun t => t.pc == 0x204) = true := by decide
/-- V-SKNP-2 -/
theorem test_sknpVx_pressed :
    nextIs (run1 0xE1A1 (setKey 7 true (regs [(1, 7)] s0))) (fun t => t.pc == 0x202 && getKey t 7) = true := by decide
/-- V-LDK-3: the lowest index -/
theorem test_ldVxK_lowest : nextIs (run1 0xF00A (setKey 3 true (setKey 9 true s0)))
    (fun t => getV t 0 == 3 && !getKey t 3 && getKey t 9 && t.pc == 0x202) = true := by decide
/-- V-LDK-2: the wait changes nothing -/
theorem test_ldVxK_waits :
    nextIs (run1 0xF00A (regs [(0, 0x55)] s0)) (fun t => getV t 0 == 0x55 && t.pc == 0x200) = true := by decide
/-- V-CLS-1 -/
theorem test_cls : nextIs (run1 0x00E0 (flip 0 0 (flip 63 31 (flip 5 5 (regs [(15, 1)] s0)))))
    (fun t => lit t == 0 && getV t 15 == 1 && t.out.length == 1 && t.pc == 0x202) = true := by decide
/-- The first draw of program P3: glyph 2 at (62, 30) wraps at the right edge and is clipped at the bottom -/
theorem test_draw_wraps_and_clips : nextIs (run1 0xD015 (setI 0x00A (regs [(0, 62), (1, 30)] s0)))
    (fun t => px t 62 30 && px t 63 30 && px t 0 30 && px t 1 30 && px t 1 31 && lit t == 5 && getV t 15 == 0 &&
      t.out.length == 1) = true := by decide
/-- V-DRAW-8: one pixel goes off -/
theorem test_draw_collides : nextIs (run1 0xD011 (setI 0x300 (bytesAt 0x300 [0xC0] (flip 1 0 (flip 5 0 s0)))))
    (fun t => px t 0 0 && px t 5 0 && !px t 1 0 && lit t == 2 && getV t 15 == 1) = true := by decide

/-! ## Host events (part 2.8) -/

/-- V-HOST-2: an empty load, then one step of the zero word -/
theorem test_empty_load_faults : nextIs (step (loadProgram [] (State.powerOn (regs [(3, 9)] s0))))
    (fun t => t.fault == some (.sysUnsupported 0) && t.pc == 0x200 && getV t 3 == 0) = true := by decide
/-- V-HOST-4: an odd length is padded by the zeroed memory -/
theorem test_odd_load :
    nextIs (step (loadProgram [0x12] (State.powerOn s0))) (fun t => t.pc == 0x200 && t.fault == none) = true := by decide
/-- V-HOST-6: a load clears the fault and keeps the keys -/
theorem test_load_clears_fault :
    (loadProgram [0x12, 0x00] (latch (.sysUnsupported 0) (keyPressed 5 s0))).fault = none ∧
    getKey (loadProgram [0x12, 0x00] (latch (.sysUnsupported 0) (keyPressed 5 s0))) 5 = true := by decide
/-- V-HOST-1: a step of a stopped core is not enabled -/
theorem test_stopped_core : nextIs (step (State.powerOn s0)) (fun t => t == State.powerOn s0) = true := by decide
/-- 60_exceptions.md R250 and 70_reset_and_hazards.md R260: pc is readable of a halted run, not before the first load -/
theorem test_host_reads_pc_of_halted_run :
    hostPc (latch .stackUnderflow (setPc 0x20C s0)) = some 0x20C ∧ hostPc (State.powerOn s0) = none := by decide
/-- V-HOST-9: a faulted core still takes keys -/
theorem test_faulted_core_takes_keys : getKey (keyPressed 2 (latch .stackUnderflow s0)) 2 = true := by decide

/-! ## Witnesses: for each statement with hypotheses, operands and a state that meet all of them together -/

theorem witness_DecodeOfEncodeIsIdentity :
    Instr.cls.wellFormed = true ∧ (Instr.sysNnn 0xFFF).wellFormed = true := by decide

theorem witness_EncodeOfDecodeIsIdentity : decodeWord 0x8AB6 = some (.shrVx 10 11) := by decide

theorem witness_OnlyClsAndRetOverlapSys :
    (∃ d0 d1 d2, descriptors[0]? = some d0 ∧ descriptors[1]? = some d1 ∧ descriptors[2]? = some d2 ∧
      d0.isMatch 0x00E0 = true ∧ d2.isMatch 0x00E0 = true ∧ d1.isMatch 0x00EE = true ∧ d2.isMatch 0x00EE = true) ∧
    (∃ d2 d34, descriptors[2]? = some d2 ∧ descriptors[34]? = some d34 ∧ descriptors[35]?.isNone = true) := by
  refine ⟨⟨_, _, _, rfl, rfl, rfl, ?_⟩, ⟨_, _, rfl, rfl, rfl⟩⟩
  decide

/-- At the lowest and the highest pc a word can stand at, and with a CPU move scheduled. -/
theorem witness_StepRunsDecodedInstruction :
    (let s := s0.withFetchWord 16 0x1234
     s.run = .running ∧ s.fault = none ∧ s.pc.toNat ≤ 4094 ∧ s.schedule = [] ∧
       decode (Memory.readBytes s.mem s.pc.toNat 2 ++ []) = .ok (.jmpNnn 0x234) []) ∧
    (let s := setSchedule [.cpu, .tick] ((setPc 4094 s0).withFetchWord 16 0x1234)
     s.run = .running ∧ s.fault = none ∧ s.pc.toNat = 4094 ∧ s.schedule = .cpu :: [.tick] ∧
       decode (Memory.readBytes s.mem s.pc.toNat 2 ++ [7]) = .ok (.jmpNnn 0x234) [7]) := by decide

theorem witness_FetchIsBigEndian : (setPc 4094 s0).pc.toNat ≤ 4094 := by decide

/-- pc = 4095 and pc = 4096, one case of the fault each, with nothing scheduled and with the CPU's move first. -/
theorem witness_FetchBeyondMemoryFaults :
    (let s := setPc 4095 s0
     s.run = .running ∧ s.fault = none ∧ 4094 < s.pc.toNat ∧ ¬ 4095 < s.pc.toNat ∧ s.schedule = []) ∧
    (let s := setSchedule [.cpu, .tick] (setPc 4096 s0)
     s.run = .running ∧ s.fault = none ∧ 4095 < s.pc.toNat ∧ s.schedule = .cpu :: [.tick]) := by decide

theorem witness_UnrecognizedWordFaults :
    (let s := s0.withFetchWord 16 0x5121
     s.run = .running ∧ s.fault = none ∧ fetch s = .ok 0x5121 ∧ decodeWord 0x5121 = none ∧ s.schedule = []) ∧
    (let s := setSchedule [.cpu] (s0.withFetchWord 16 0x5121)
     s.run = .running ∧ s.fault = none ∧ fetch s = .ok 0x5121 ∧ decodeWord 0x5121 = none ∧ s.schedule = .cpu :: []) :=
  ⟨⟨rfl, rfl, rfl, by decide, rfl⟩, rfl, rfl, rfl, by decide, rfl⟩

theorem witness_FaultsArePrecise : s0.fault = none ∧ nextIs (cpuStep s0) (fun t => t.fault != none) = true := by decide

theorem witness_DisabledMovesChangeNothing :
    (State.powerOn s0).run ≠ .running ∧ (latch .stackOverflow s0).fault ≠ none ∧ (setRun .exit s0).run = .exit := by decide

theorem witness_ExitIsTerminal : (requestExit s0).run = .exit := by decide

/-- A load starts a stopped core, an exit request ends it, a key changes nothing: the three cases. -/
theorem witness_RunStateTransitions :
    move (.loadProgram []) (State.powerOn s0) = .next (loadProgram [] (State.powerOn s0)) ∧
    (loadProgram [] (State.powerOn s0)).run = .running ∧ (State.powerOn s0).run ≠ .exit ∧
    move .requestExit s0 = .next (requestExit s0) ∧ move (.keyPressed 3) s0 = .next (keyPressed 3 s0) :=
  ⟨rfl, rfl, by decide, rfl, rfl⟩

theorem witness_FaultFreezesUntilLoad :
    (latch .stackOverflow s0).fault ≠ none ∧
    move (.keyPressed 3) (latch .stackOverflow s0) = .next (keyPressed 3 (latch .stackOverflow s0)) :=
  ⟨by decide, rfl⟩

theorem reset_Inv : State.reset.Inv := ⟨rfl, by decide, by decide⟩

theorem witness_EveryStepKeepsInvariant : State.reset.Inv ∧ ∃ t, step State.reset = .next t := ⟨reset_Inv, _, rfl⟩

theorem witness_ProgramCannotSeeHiddenState :
    SameToProgram s0 (setSt 9 (setRun .stopped (emit .loadError (latch .stackOverflow s0)))) ∧
    (∃ t, exec (.addVxVy 1 2) s0 = .next t) ∧
    (∃ t, exec (.addVxVy 1 2) (setSt 9 (setRun .stopped (emit .loadError (latch .stackOverflow s0)))) = .next t) :=
  ⟨by constructor <;> rfl, ⟨_, rfl⟩, ⟨_, rfl⟩⟩

/-- No writer of any part but pc; a writer of VF through its number; and for a register, a fault and the draws an instruction at
each side of the boundary. -/
theorem witness_WritersOfEachPart :
    (∃ t, exec (.jmpNnn 5) s0 = .next t) ∧ (∃ t, exec (.ldVxKk 15 3) s0 = .next t) ∧
    (∃ t, exec (.ldVxImem 3) s0 = .next t) ∧ (∃ t, exec (.addVxVy 1 2) s0 = .next t) ∧
    writesRegister (.ldVxImem 3) 4 = false ∧ writesRegister (.ldVxImem 3) 3 = true ∧
    writesRegister (.addVxVy 1 2) 2 = false ∧ writesRegister (.addVxVy 1 2) 15 = true ∧
    canFault (.addVxVy 1 2) = false ∧ canFault (.ldVxImem 3) = true ∧
    (∀ x kk, Instr.ldVxImem 3 ≠ .rndVxKk x kk) :=
  ⟨⟨_, rfl⟩, ⟨_, rfl⟩, ⟨_, rfl⟩, ⟨_, rfl⟩, by decide, by decide, by decide, by decide, by decide, by decide, by simp⟩

/-- CLS, a draw that does not fault, and one that does. -/
theorem witness_FrameReadyEmission :
    s0.fault = none ∧ (∃ t, exec .cls s0 = .next t ∧ t.fault = none) ∧
    (∃ t, exec (.drawVxVyN 0 0 1) s0 = .next t ∧ t.fault = none) ∧
    (∃ t, exec (.drawVxVyN 0 0 1) (setI 0x1000 s0) = .next t ∧ t.fault ≠ none) :=
  ⟨rfl, ⟨_, rfl, rfl⟩, ⟨_, rfl, rfl⟩, ⟨_, rfl, by decide⟩⟩

/-- The sums 255 and 256, in a register that is not VF. -/
theorem witness_AddSetsCarry :
    (1 : Idx) ≠ 15 ∧ (getV (regs [(1, 0xFF)] s0) 1).toNat + (getV (regs [(1, 0xFF)] s0) 2).toNat = 255 ∧
    (getV (regs [(1, 0xFF), (2, 1)] s0) 1).toNat + (getV (regs [(1, 0xFF), (2, 1)] s0) 2).toNat > 255 := by decide

/-- Equal operands, and a register that is not VF: the boundary of both subtractions' flags. -/
theorem witness_SubtractSetsGreaterFlag :
    (1 : Idx) ≠ 15 ∧ ¬ (getV s0 1).toNat > (getV s0 2).toNat ∧ (getV (regs [(1, 1)] s0) 1).toNat > (getV (regs [(1, 1)] s0) 2).toNat := by
  decide

theorem witness_ReverseSubtractSetsLessFlag :
    (1 : Idx) ≠ 15 ∧ ¬ (getV s0 1).toNat < (getV s0 2).toNat ∧ (getV (regs [(2, 1)] s0) 1).toNat < (getV (regs [(2, 1)] s0) 2).toNat := by
  decide

theorem witness_ShiftsKeepRawFlag :
    (1 : Idx) ≠ 15 ∧ 128 ≤ (getV (regs [(1, 128)] s0) 1).toNat ∧ ¬ 128 ≤ (getV (regs [(1, 127)] s0) 1).toNat := by
  decide

theorem witness_JumpIsAbsolute : s0.pc.toNat = (0x200 : Imm12).toNat := by decide

theorem witness_CallPushesReturnAddress : (setSp 15 s0).sp.val < 16 ∧ s0.sp.val < 16 := by decide

/-- One live entry and sixteen. -/
theorem witness_ReturnPopsIntoPc :
    (setSp 1 s0).sp.val = (0 : Idx).val + 1 ∧ (setSp 16 s0).sp.val = (15 : Idx).val + 1 := by decide

theorem witness_StackLimitsFault : (setSp 16 s0).sp.val = 16 ∧ s0.sp.val = 0 := by decide

theorem witness_CallThenReturnComesBack :
    (setSp 15 s0).sp.val < 16 ∧ ∃ t u : State, exec (.callNnn 0x300) (setSp 15 s0) = .next t ∧ u.sp = t.sp ∧ u.stack = t.stack :=
  ⟨by decide, _, setPc 0x300 (setSp 16 (setStack 15 0x202 s0)), rfl, rfl, rfl⟩

theorem witness_BcdStoresThreeDigits : Memory.wf (setI 4093 s0).mem = true ∧ (setI 4093 s0).i.toNat ≤ 4093 := by decide

theorem witness_DumpStoresRegistersInclusive :
    Memory.wf s0.mem = true ∧ (setI 4080 s0).i.toNat + (15 : Idx).val ≤ 4095 ∧ (setI 4095 s0).i.toNat + (0 : Idx).val ≤ 4095 := by decide

theorem witness_LoadFillsRegistersInclusive :
    (setI 4080 s0).i.toNat + (15 : Idx).val ≤ 4095 ∧ (setI 4095 s0).i.toNat + (0 : Idx).val ≤ 4095 := by decide

/-- Each clause at the first value beyond memory. -/
theorem witness_TransfersBeyondMemoryFault :
    4093 < (setI 4094 s0).i.toNat ∧ 4095 < (setI 4081 s0).i.toNat + (15 : Idx).val ∧
    4095 < (setI 4096 s0).i.toNat + (0 : Idx).val ∧
    0 < (1 : Fin 16).val ∧ 4095 < (setI 4096 s0).i.toNat + (1 : Fin 16).val - 1 ∧
    4095 < (setI 4082 s0).i.toNat + (15 : Fin 16).val - 1 := by decide

/-- The store of V-DUMP-6. -/
theorem witness_StoredWordIsFetchedNext :
    Memory.wf (setI 0x202 s0).mem = true ∧ 1 ≤ (1 : Idx).val ∧ (setI 0x202 s0).pc.toNat + 2 = (setI 0x202 s0).i.toNat ∧
    (setI 0x202 s0).i.toNat + (1 : Idx).val ≤ 4095 ∧ ∃ t, exec (.ldImemVx 1) (setI 0x202 s0) = .next t :=
  ⟨by decide, by decide, by decide, by decide, _, rfl⟩

theorem witness_TickCountsDown : (setDt 1 s0).run = .running ∧ (setDt 1 s0).fault = none := by decide

/-- No row from an address beyond memory, and rows up to the last byte. -/
theorem witness_DrawXorsTheSprite :
    ((0 : Fin 16).val = 0 ∨ (setI 0xFFFF s0).i.toNat + (0 : Fin 16).val ≤ 4096) ∧
    ((15 : Fin 16).val = 0 ∨ (setI 4081 s0).i.toNat + (15 : Fin 16).val ≤ 4096) := by decide

theorem witness_DrawTwiceRestoresScreen :
    (0 : Idx) ≠ 15 ∧ (1 : Idx) ≠ 15 ∧ ((5 : Fin 16).val = 0 ∨ s0.i.toNat + (5 : Fin 16).val ≤ 4096) ∧
    ∃ t u, exec (.drawVxVyN 0 1 5) s0 = .next t ∧ exec (.drawVxVyN 0 1 5) t = .next u :=
  ⟨by decide, by decide, by decide, _, _, rfl, rfl⟩

theorem witness_KeySkipsTestTheSlot : (getV (regs [(3, 15)] s0) 3).toNat = (15 : Idx).val := by decide

theorem witness_KeyIndexAboveFifteenFaults : 15 < (getV (regs [(3, 16)] s0) 3).toNat := by decide

theorem witness_KeyWaitConsumesLowestKey :
    getKey (setKey 15 true s0) 15 = true ∧ ∀ j, j < 15 → getKey (setKey 15 true s0) j = false := by decide

theorem witness_KeyWaitStallsUnchanged : ∀ k, getKey s0 k = false := by decide

theorem witness_KeyEventsWriteOneSlot : s0.run ≠ .exit ∧ (State.powerOn s0).run ≠ .exit := by decide

theorem witness_ResizeOnlyClearsScreen : (State.powerOn s0).run ≠ .exit := by decide

theorem witness_LoadGivesEntryState :
    (State.powerOn s0).run ≠ .exit ∧ ([] : List Byte).length ≤ 3584 ∧ (List.replicate 3584 (0xAA : Byte)).length ≤ 3584 :=
  ⟨by decide, by decide, by rw [List.length_replicate]⟩

theorem witness_OversizeLoadIsRejected : s0.run ≠ .exit ∧ 3584 < (List.replicate 3585 (0xAA : Byte)).length :=
  ⟨by decide, by rw [List.length_replicate]; decide⟩

/-- At a pc where a word can stand and at one where none can. -/
theorem witness_PlacedWordIsRunNext :
    Memory.wf s0.mem = true ∧ Memory.wf (setPc 4095 s0).mem = true ∧ decodeTableWord 16 0x1234 = some (.jmpNnn 0x234) := by decide

end Sys2Proof.Tests
end

section
/-! The memory statements (20_memory.md). -/

namespace Sys2Proof.Proofs.MemoryFamily

open Sys2Proof.Machine

/-- The fetch answers the word at pc as soon as both its bytes exist (20_memory.md R62). -/
theorem fetch_eq_wordAt {s : State} (hpc : s.pc.toNat ≤ 4094) : fetch s = .ok (wordAt s.mem s.pc.toNat) := by
  obtain ⟨-, hword⟩ | ⟨hbeyond, -⟩ := fetch_cases s
  · exact hword
  · omega

/-- Settles O7: at a pc of at most 4094 the fetch is `wordAt`, whose value is the big-endian sum of its two bytes. -/
theorem fetchIsBigEndian : Obligations.FetchIsBigEndian := by
  intro s hpc
  exact ⟨wordAt s.mem s.pc.toNat, fetch_eq_wordAt hpc, wordAt_toNat s.mem s.pc.toNat⟩

end Sys2Proof.Proofs.MemoryFamily
end

section
/-! The control flow statements (41_control_flow.md). -/

namespace Sys2Proof.Proofs.ControlFlowFamily

open Sys2Proof.Machine

/-- A direct jump writes its zero-extended immediate to pc (41_control_flow.md R142). -/
theorem exec_jmpNnn (nnn : Imm12) (s : State) : exec (.jmpNnn nnn) s = .next (setPc (addrOf nnn) s) :=
  jumpTo_eq (addrOf nnn) s

/-- An indexed jump writes its target to pc, whatever the target is (41_control_flow.md R148, R149). -/
theorem exec_jmpV0Nnn (nnn : Imm12) (s : State) : exec (.jmpV0Nnn nnn) s = .next (setPc (indexedTarget nnn s) s) :=
  jumpTo_eq (indexedTarget nnn s) s

/-- No frame speaks of pc, so a write to pc alone keeps every part and every register. -/
theorem unchanged_setPc (a : Word) (s : State) : Unchanged [] [] s (setPc a s) := by
  apply unchanged_of <;> simp

/-- Writing the pc a state already has changes nothing. -/
theorem setPc_eq_self {a : Word} {s : State} (h : s.pc = a) : setPc a s = s := by
  subst h
  rfl

/-- The indexed target is the sum in the natural numbers: at most 0xFFF + 0xFF = 0x10FE, it fits in 16 bits
(41_control_flow.md R148). -/
theorem indexedTarget_toNat (nnn : Imm12) (s : State) :
    (indexedTarget nnn s).toNat = nnn.toNat + (getV s 0).toNat := by
  have hnnn := nnn.isLt
  have hv0 := (getV s 0).isLt
  rw [indexedTarget, BitVec.toNat_add, addrOf_toNat, BitVec.toNat_setWidth_of_le (by decide)]
  exact Nat.mod_eq_of_lt (by omega)

/-- Settles O30: the next state is `setPc (addrOf nnn) s`, which is `s` when its pc has that value already. -/
theorem jumpIsAbsolute : Obligations.JumpIsAbsolute := by
  intro nnn s
  refine ⟨setPc (addrOf nnn) s, exec_jmpNnn nnn s, addrOf_toNat nnn, unchanged_setPc (addrOf nnn) s, ?_⟩
  intro hpc
  have htarget : s.pc = addrOf nnn := BitVec.eq_of_toNat_eq (hpc.trans (addrOf_toNat nnn).symm)
  exact setPc_eq_self htarget

/-- Settles O31: the next state is `setPc (indexedTarget nnn s) s`, and that target does not wrap. -/
theorem indexedJumpDoesNotWrap : Obligations.IndexedJumpDoesNotWrap := by
  intro nnn s
  exact ⟨setPc (indexedTarget nnn s) s, exec_jmpV0Nnn nnn s, indexedTarget_toNat nnn s,
    unchanged_setPc (indexedTarget nnn s) s⟩

end Sys2Proof.Proofs.ControlFlowFamily
end

section
/-! The key statements (45_keys.md). -/

namespace Sys2Proof.Proofs.KeysFamily

open Sys2Proof.Machine

/-- Outside Exit a host event takes effect (60_exceptions.md R242, R244). -/
theorem unlessExit_of_ne {s : State} (hrun : s.run ≠ .exit) (s' : State) : unlessExit s s' = s' :=
  if_neg hrun

/-- Outside Exit a press writes true to its slot (45_keys.md R208). -/
theorem move_keyPressed {s : State} (hrun : s.run ≠ .exit) (k : Idx) :
    move (.keyPressed k) s = .next (setKey k true s) :=
  congrArg _ (unlessExit_of_ne hrun (setKey k true s))

/-- Outside Exit a release writes false to its slot (45_keys.md R209). -/
theorem move_keyReleased {s : State} (hrun : s.run ≠ .exit) (k : Idx) :
    move (.keyReleased k) s = .next (setKey k false s) :=
  congrArg _ (unlessExit_of_ne hrun (setKey k false s))

/-- A write to a slot keeps every register and every part but KEY. -/
theorem unchanged_setKey (k : Idx) (b : Bool) (s : State) : Unchanged [.keys] [] s (setKey k b s) := by
  apply unchanged_of <;> simp

/-- The write that a press and a release share: the slot reads as the value written, whatever it held, and the other slots,
pc and the rest of the state stay. -/
theorem setKey_writes_one_slot (k : Idx) (b : Bool) (s : State) :
    getKey (setKey k b s) k = b ∧ (∀ j, j ≠ k → getKey (setKey k b s) j = getKey s j) ∧ (setKey k b s).pc = s.pc ∧
      Unchanged [.keys] [] s (setKey k b s) := by
  refine ⟨?_, ?_, setKey_pc k b s, unchanged_setKey k b s⟩
  · rw [getKey_setKey, if_pos rfl]
  · intro j hjk
    rw [getKey_setKey, if_neg hjk]

/-- Settles O52: outside Exit the two events are `setKey k true` and `setKey k false`. -/
theorem keyEventsWriteOneSlot : Obligations.KeyEventsWriteOneSlot := by
  intro k s hrun
  constructor
  · exact ⟨setKey k true s, move_keyPressed hrun k, setKey_writes_one_slot k true s⟩
  · exact ⟨setKey k false s, move_keyReleased hrun k, setKey_writes_one_slot k false s⟩

end Sys2Proof.Proofs.KeysFamily
end

section
/-! The encoding statements (30_encoding.md). -/

namespace Sys2Proof.Proofs.Encoding

open Sys2Proof Sys2Proof.Laws

/-- Settles O1: each of the sixteen words is looked up in the table. -/
theorem sampleWordsDecode : Obligations.SampleWordsDecode := by
  unfold Obligations.SampleWordsDecode
  decide

/-! ## Which rows of the table overlap (R97) -/

/-- The patterns of two rows agree on every bit that both masks look at. -/
def Compatible (d e : Descriptor) : Prop := d.pattern &&& e.mask = e.pattern &&& d.mask

theorem isMatch_iff (d : Descriptor) (op : Word) : d.isMatch op = true ↔ op &&& d.mask = d.pattern := beq_iff_eq

/-- Two rows that match one word are compatible: each pattern is the word under its mask. -/
theorem compatible_of_isMatch {d e : Descriptor} {op : Word} (hd : d.isMatch op = true) (he : e.isMatch op = true) :
    Compatible d e := by
  rw [isMatch_iff] at hd he
  rw [Compatible, ← hd, ← he, BitVec.and_assoc, BitVec.and_assoc, BitVec.and_comm d.mask]

/-- The only rows of the table that are compatible with a later one are those of CLS and RET, with that of SYS_NNN. -/
theorem compatible_rows : ∀ j k : Fin descriptors.length, j < k → Compatible descriptors[j] descriptors[k] →
    (j.val = 0 ∧ k.val = 2) ∨ (j.val = 1 ∧ k.val = 2) := by
  unfold Compatible
  decide

/-- Two rows that match one word are those of CLS and SYS_NNN, or of RET and SYS_NNN. -/
theorem rows_of_isMatch {j k : Nat} {dj dk : Descriptor} {op : Word} (hj : descriptors[j]? = some dj)
    (hk : descriptors[k]? = some dk) (hjk : j < k) (hmj : dj.isMatch op = true) (hmk : dk.isMatch op = true) :
    (j = 0 ∧ k = 2) ∨ (j = 1 ∧ k = 2) := by
  obtain ⟨hjlt, rfl⟩ := List.getElem?_eq_some_iff.1 hj
  obtain ⟨hklt, rfl⟩ := List.getElem?_eq_some_iff.1 hk
  exact compatible_rows ⟨j, hjlt⟩ ⟨k, hklt⟩ hjk (compatible_of_isMatch hmj hmk)

/-- Settles O4: a common word makes two rows compatible; and `00E0` and `00EE` are the common words of the two pairs. -/
theorem onlyClsAndRetOverlapSys : Obligations.OnlyClsAndRetOverlapSys := by
  intro j k dj dk hj hk hjk
  constructor
  · rintro ⟨op, hmj, hmk⟩
    exact rows_of_isMatch hj hk hjk hmj hmk
  · rintro (⟨rfl, rfl⟩ | ⟨rfl, rfl⟩) <;> cases hj <;> cases hk
    · exact ⟨0x00E0, rfl, rfl⟩
    · exact ⟨0x00EE, rfl, rfl⟩

/-! ## Decoding an encoded instruction -/

/-- Every instruction is what some row reads from its word: the laws of the 35 instructions together. -/
theorem tableReads (i : Instr) : TableReads.Statement i :=
  match i with
  | .cls => TableReads.cls
  | .ret => TableReads.ret
  | .sysNnn nnn => TableReads.sysNnn nnn
  | .jmpNnn nnn => TableReads.jmpNnn nnn
  | .callNnn nnn => TableReads.callNnn nnn
  | .seVxKk x kk => TableReads.seVxKk x kk
  | .sneVxKk x kk => TableReads.sneVxKk x kk
  | .seVxVy x y => TableReads.seVxVy x y
  | .ldVxKk x kk => TableReads.ldVxKk x kk
  | .addVxKk x kk => TableReads.addVxKk x kk
  | .ldVxVy x y => TableReads.ldVxVy x y
  | .orVxVy x y => TableReads.orVxVy x y
  | .andVxVy x y => TableReads.andVxVy x y
  | .xorVxVy x y => TableReads.xorVxVy x y
  | .addVxVy x y => TableReads.addVxVy x y
  | .subVxVy x y => TableReads.subVxVy x y
  | .shrVx x y => TableReads.shrVx x y
  | .subnVxVy x y => TableReads.subnVxVy x y
  | .shlVx x y => TableReads.shlVx x y
  | .sneVxVy x y => TableReads.sneVxVy x y
  | .ldINnn nnn => TableReads.ldINnn nnn
  | .jmpV0Nnn nnn => TableReads.jmpV0Nnn nnn
  | .rndVxKk x kk => TableReads.rndVxKk x kk
  | .drawVxVyN x y n => TableReads.drawVxVyN x y n
  | .skpVx x => TableReads.skpVx x
  | .sknpVx x => TableReads.sknpVx x
  | .ldVxDt x => TableReads.ldVxDt x
  | .ldVxK x => TableReads.ldVxK x
  | .ldDtVx x => TableReads.ldDtVx x
  | .ldStVx x => TableReads.ldStVx x
  | .addIVx x => TableReads.addIVx x
  | .ldFVx x => TableReads.ldFVx x
  | .ldBVx x => TableReads.ldBVx x
  | .ldImemVx x => TableReads.ldImemVx x
  | .ldVxImem x => TableReads.ldVxImem x

/-- The rows of CLS and RET match their own word only, and the row of SYS_NNN reads no well-formed instruction from it. -/
theorem sysRow_not_wellFormed {j : Nat} {dj : Descriptor} {op : Word} (hj : j = 0 ∨ j = 1)
    (hdj : descriptors[j]? = some dj) (hm : dj.isMatch op = true) :
    (Instr.sysNnn (fieldNNN op)).wellFormed = false := by
  rw [isMatch_iff] at hm
  rcases hj with rfl | rfl <;> cases hdj
  · have hop : op = 0x00E0 := (BitVec.and_allOnes (x := op)).symm.trans hm
    subst hop
    decide
  · have hop : op = 0x00EE := (BitVec.and_allOnes (x := op)).symm.trans hm
    subst hop
    decide

/-- The first row that matches the word of a well-formed instruction is the row that reads the instruction back: an earlier
match would be CLS or RET, standing before SYS_NNN. -/
theorem decodeWord_encodeWord {i : Instr} (hwf : i.wellFormed = true) : decodeWord (encodeWord i) = some i := by
  obtain ⟨d, hd, hmatch, hbuild⟩ := tableReads i
  obtain ⟨k, hk, rfl⟩ := List.getElem_of_mem hd
  have hfind : descriptors.find? (·.isMatch (encodeWord i)) = some descriptors[k] := by
    rw [List.find?_eq_some_iff_getElem]
    refine ⟨hmatch, k, hk, rfl, fun j hjk => ?_⟩
    by_contra hmj
    simp only [Bool.not_eq_true', Bool.not_eq_false] at hmj
    have hj := List.getElem?_eq_getElem (hjk.trans hk)
    have hrows := rows_of_isMatch hj (List.getElem?_eq_getElem hk) hjk hmj hmatch
    obtain rfl : k = 2 := by omega
    have hsys := sysRow_not_wellFormed (by omega) hj hmj
    rw [← hbuild] at hwf
    exact Bool.false_ne_true (hsys.symm.trans hwf)
  rw [decodeWord, hfind, Option.map_some, hbuild]

/-- Two bytes that join to a word which decodes are an instruction, whatever follows. -/
theorem decode_of_decodeWord {hi lo : Byte} {i : Instr} (rest : List Byte) (h : decodeWord (joinBytes hi lo) = some i) :
    decode (hi :: lo :: rest) = .ok i rest := by
  simp only [decode, h]

/-- Settles O2: the two bytes join to the instruction's word, and the first row that matches that word reads it back. -/
theorem decodeOfEncodeIsIdentity : Obligations.DecodeOfEncodeIsIdentity := by
  intro i rest hwf
  apply decode_of_decodeWord
  rw [Machine.joinBytes_hi_lo]
  exact decodeWord_encodeWord hwf

/-! ## Encoding a decoded word -/

/-- A mask without its `k` lowest bits takes those bits off the masked word. -/
theorem and_shiftRight_shiftLeft (op m : Word) (k : Nat) : op &&& (m >>> k <<< k) = (op &&& m) >>> k <<< k := by
  ext i hi
  by_cases h : i < k
  · simp [h]
  · simp [h, Nat.add_sub_cancel' (Nat.le_of_not_lt h), hi]

/-- A four-bit field that a word gives, put back in its place, is the word under the field's mask. -/
theorem place_extractField {m : Word} {k : Nat} (op : Word) (hm : m >>> k <<< k = m) (hk : m.toNat >>> k < 16) :
    BitVec.ofNat 16 (Fin.ofNat 16 (extractField m k op)).val <<< k = op &&& m := by
  have hlt : extractField m k op < 16 := by
    rw [extractField, BitVec.toNat_ushiftRight, BitVec.toNat_and]
    refine lt_of_le_of_lt ?_ hk
    rw [Nat.shiftRight_eq_div_pow, Nat.shiftRight_eq_div_pow]
    exact Nat.div_le_div_right Nat.and_le_right
  have hval : (Fin.ofNat 16 (extractField m k op)).val = extractField m k op := Nat.mod_eq_of_lt hlt
  rw [hval, extractField, BitVec.ofNat_toNat, BitVec.setWidth_eq, ← and_shiftRight_shiftLeft, hm]

theorem placeX_fieldX (op : Word) : placeX (fieldX op) = op &&& 0x0F00 := place_extractField op rfl (by decide)

theorem placeY_fieldY (op : Word) : placeY (fieldY op) = op &&& 0x00F0 := place_extractField op rfl (by decide)

theorem placeN_fieldN (op : Word) : placeN (fieldN op) = op &&& 0x000F :=
  (BitVec.shiftLeft_zero _).symm.trans (place_extractField op rfl (by decide))

theorem placeKK_fieldKK (op : Word) : placeKK (fieldKK op) = op &&& 0x00FF := by
  apply BitVec.eq_of_toNat_eq
  have hle : (op &&& 0x00FF).toNat ≤ 0xFF := BitVec.toNat_and .. ▸ Nat.and_le_right
  simp only [placeKK, fieldKK, extractField, BitVec.ushiftRight_zero, BitVec.toNat_setWidth, BitVec.toNat_ofNat]
  omega

theorem placeNNN_fieldNNN (op : Word) : placeNNN (fieldNNN op) = op &&& 0x0FFF := by
  apply BitVec.eq_of_toNat_eq
  have hle : (op &&& 0x0FFF).toNat ≤ 0xFFF := BitVec.toNat_and .. ▸ Nat.and_le_right
  simp only [placeNNN, fieldNNN, extractField, BitVec.ushiftRight_zero, BitVec.toNat_setWidth, BitVec.toNat_ofNat]
  omega

/-- A word of a row with the field NNN: its pattern and that field. -/
theorem join_nnn {op p : Word} (h : op &&& 0xF000 = p) : p ||| placeNNN (fieldNNN op) = op := by
  rw [← h, placeNNN_fieldNNN, ← BitVec.and_or_distrib_left]
  exact BitVec.and_allOnes

/-- A word of a row with the fields X and KK. -/
theorem join_x_kk {op p : Word} (h : op &&& 0xF000 = p) : p ||| placeX (fieldX op) ||| placeKK (fieldKK op) = op := by
  rw [← h, placeX_fieldX, placeKK_fieldKK, ← BitVec.and_or_distrib_left, ← BitVec.and_or_distrib_left]
  exact BitVec.and_allOnes

/-- A word of a row with the fields X and Y. -/
theorem join_x_y {op p : Word} (h : op &&& 0xF00F = p) : p ||| placeX (fieldX op) ||| placeY (fieldY op) = op := by
  rw [← h, placeX_fieldX, placeY_fieldY, ← BitVec.and_or_distrib_left, ← BitVec.and_or_distrib_left]
  exact BitVec.and_allOnes

/-- A word of a row with the fields X, Y and N. -/
theorem join_x_y_n {op p : Word} (h : op &&& 0xF000 = p) :
    p ||| placeX (fieldX op) ||| placeY (fieldY op) ||| placeN (fieldN op) = op := by
  rw [← h, placeX_fieldX, placeY_fieldY, placeN_fieldN, ← BitVec.and_or_distrib_left, ← BitVec.and_or_distrib_left,
    ← BitVec.and_or_distrib_left]
  exact BitVec.and_allOnes

/-- A word of a row with the field X alone. -/
theorem join_x {op p : Word} (h : op &&& 0xF0FF = p) : p ||| placeX (fieldX op) = op := by
  rw [← h, placeX_fieldX, ← BitVec.and_or_distrib_left]
  exact BitVec.and_allOnes

/-- Each word that a row matches is the encoding of what the row reads from it. -/
def RowEncodes (d : Descriptor) : Prop := ∀ op : Word, op &&& d.mask = d.pattern → encodeWord (d.build op) = op

theorem rowEncodes_descriptors1 : ∀ d ∈ descriptors1, RowEncodes d :=
  List.forall_iff_forall_mem.1
    ⟨fun _ h => h.symm.trans BitVec.and_allOnes, fun _ h => h.symm.trans BitVec.and_allOnes, fun _ => join_nnn,
      fun _ => join_nnn, fun _ => join_nnn, fun _ => join_x_kk, fun _ => join_x_kk, fun _ => join_x_y, fun _ => join_x_kk,
      fun _ => join_x_kk⟩

theorem rowEncodes_descriptors2 : ∀ d ∈ descriptors2, RowEncodes d :=
  List.forall_iff_forall_mem.1
    ⟨fun _ => join_x_y, fun _ => join_x_y, fun _ => join_x_y, fun _ => join_x_y, fun _ => join_x_y, fun _ => join_x_y,
      fun _ => join_x_y, fun _ => join_x_y, fun _ => join_x_y, fun _ => join_x_y, fun _ => join_nnn, fun _ => join_nnn,
      fun _ => join_x_kk, fun _ => join_x_y_n⟩

theorem rowEncodes_descriptors3 : ∀ d ∈ descriptors3, RowEncodes d :=
  List.forall_iff_forall_mem.1
    ⟨fun _ => join_x, fun _ => join_x, fun _ => join_x, fun _ => join_x, fun _ => join_x, fun _ => join_x, fun _ => join_x,
      fun _ => join_x, fun _ => join_x, fun _ => join_x, fun _ => join_x⟩

theorem rowEncodes_of_mem {d : Descriptor} (h : d ∈ descriptors) : RowEncodes d := by
  rw [descriptors, List.mem_append, List.mem_append] at h
  rcases h with (h | h) | h
  · exact rowEncodes_descriptors1 d h
  · exact rowEncodes_descriptors2 d h
  · exact rowEncodes_descriptors3 d h

/-- A word that decodes is the encoding of what it decodes to. -/
theorem encodeWord_of_decodeWord {op : Word} {i : Instr} (h : decodeWord op = some i) : encodeWord i = op := by
  rw [decodeWord, Option.map_eq_some_iff] at h
  obtain ⟨d, hfind, rfl⟩ := h
  exact rowEncodes_of_mem (List.mem_of_find?_eq_some hfind) op
    ((isMatch_iff d op).1 (List.find?_some (p := fun e : Descriptor => e.isMatch op) hfind))

/-- What a word decodes to is well-formed: the two words that SYS_NNN leaves out decode to CLS and RET. -/
theorem wellFormed_of_decodeWord {op : Word} {i : Instr} (h : decodeWord op = some i) : i.wellFormed = true := by
  have henc := encodeWord_of_decodeWord h
  subst henc
  cases i with
  | sysNnn nnn =>
    have hcls : nnn ≠ 0x0E0 := by rintro rfl; exact absurd h (by decide)
    have hret : nnn ≠ 0x0EE := by rintro rfl; exact absurd h (by decide)
    exact Bool.and_eq_true_iff.2 ⟨bne_iff_ne.2 hcls, bne_iff_ne.2 hret⟩
  | _ => rfl

/-- Settles O3: row by row, the pattern and the fields that the row reads make up the whole word. -/
theorem encodeOfDecodeIsIdentity : Obligations.EncodeOfDecodeIsIdentity :=
  fun _ _ h => ⟨encodeWord_of_decodeWord h, wellFormed_of_decodeWord h⟩

/-! ## Which words decode to nothing (R100) -/

/-- A word decodes to nothing when no row matches it. -/
theorem decodeWord_eq_none_iff (op : Word) :
    decodeWord op = none ↔ ∀ d ∈ descriptors, (op &&& d.mask).toNat ≠ d.pattern.toNat := by
  simp only [decodeWord, Option.map_eq_none_iff, List.find?_eq_none, isMatch_iff, ne_eq, BitVec.toNat_inj]

/-- The upper digit of a word, left in its place. -/
theorem and_F000 (op : Word) : op &&& (0xF000 : Word) = op >>> 12 <<< 12 :=
  calc op &&& (0xF000 : Word)
    _ = (op &&& BitVec.allOnes 16) >>> 12 <<< 12 := and_shiftRight_shiftLeft op (BitVec.allOnes 16) 12
    _ = op >>> 12 <<< 12 := by rw [BitVec.and_allOnes]

/-- The value of a word under a mask of its upper four and its lower `k` bits. -/
theorem toNat_and_mask {m : Word} {k : Nat} (op : Word) (hk : k ≤ 12) (hm : m = 0xF000 ||| BitVec.ofNat 16 (2 ^ k - 1)) :
    (op &&& m).toNat = op.toNat / 4096 * 4096 + op.toNat % 2 ^ k := by
  have hpow : 2 ^ k ≤ 2 ^ 12 := Nat.pow_le_pow_right (by decide) hk
  have hlow : op.toNat % 2 ^ k < 2 ^ 12 := lt_of_lt_of_le (Nat.mod_lt _ (Nat.two_pow_pos k)) hpow
  have hlit : (2 ^ k - 1) % 2 ^ 16 = 2 ^ k - 1 := Nat.mod_eq_of_lt (by omega)
  have hop := op.isLt
  have hhigh : (op >>> 12 <<< 12).toNat = 2 ^ 12 * (op.toNat / 2 ^ 12) := by
    rw [BitVec.toNat_shiftLeft, BitVec.toNat_ushiftRight, Nat.shiftRight_eq_div_pow, Nat.shiftLeft_eq]
    omega
  rw [hm, BitVec.and_or_distrib_left, and_F000, BitVec.toNat_or, hhigh, BitVec.toNat_and, BitVec.toNat_ofNat, hlit,
    Nat.and_two_pow_sub_one_eq_mod, ← Nat.two_pow_add_eq_or_of_lt hlow]
  omega

/-- Such a mask picks out the words with a given upper digit and given lower bits. -/
theorem toNat_and_mask_eq_iff {m : Word} {k : Nat} (op : Word) (hk : k ≤ 12)
    (hm : m = 0xF000 ||| BitVec.ofNat 16 (2 ^ k - 1)) (p : Nat) :
    (op &&& m).toNat = p ↔ op.toNat / 4096 = p / 4096 ∧ op.toNat % 2 ^ k = p % 4096 := by
  have hpow : 2 ^ k ≤ 2 ^ 12 := Nat.pow_le_pow_right (by decide) hk
  have hlow : op.toNat % 2 ^ k < 2 ^ 12 := lt_of_lt_of_le (Nat.mod_lt _ (Nat.two_pow_pos k)) hpow
  rw [toNat_and_mask op hk hm]
  omega

/-- Settles O5: each row is a condition on the upper digit and the lower bits of the word, so each of the sixteen upper digits
leaves the conditions of its own rows. -/
theorem illegalWordsCharacterized : Obligations.IllegalWordsCharacterized := by
  intro op
  have hF000 := toNat_and_mask_eq_iff (m := 0xF000) (k := 0) op (by decide) rfl
  have hF00F := toNat_and_mask_eq_iff (m := 0xF00F) (k := 4) op (by decide) rfl
  have hF0FF := toNat_and_mask_eq_iff (m := 0xF0FF) (k := 8) op (by decide) rfl
  have hFFFF := toNat_and_mask_eq_iff (m := 0xFFFF) (k := 12) op (by decide) rfl
  have hdigit : op.toNat / 4096 < 16 := Nat.div_lt_of_lt_mul op.isLt
  have hlow : op.toNat % 16 < 16 := Nat.mod_lt _ (by decide)
  rw [decodeWord_eq_none_iff]
  simp only [descriptors, descriptors1, descriptors2, descriptors3, List.mem_append, or_imp, forall_and,
    List.forall_mem_cons, ne_eq, hF000, hF00F, hF0FF, hFFFF]
  generalize op.toNat / 4096 = digit at *
  interval_cases digit <;> simp [Nat.mod_one]
  -- the upper digit 8: which of the sixteen lowest digits its nine rows leave out
  omega

end Sys2Proof.Proofs.Encoding
end

section
/-! Which part of the state an instruction can write (10_state.md R20), and what no instruction can read. -/

namespace Sys2Proof.Proofs.ExecFrame

open Sys2Proof Sys2Proof.Machine

/-! ## Writers (O19) -/

/-- What an instruction leaves alone, part by part, and that it writes the latch only by taking a fault. -/
structure Frame (i : Instr) (s t : State) : Prop where
  memory : (∀ x, i ≠ .ldBVx x ∧ i ≠ .ldImemVx x) → t.mem = s.mem
  registers : ∀ r, writesRegister i r = false → getV t r = getV s r
  index : (∀ nnn x, i ≠ .ldINnn nnn ∧ i ≠ .addIVx x ∧ i ≠ .ldFVx x) → t.i = s.i
  stack : (∀ nnn, i ≠ .callNnn nnn) → t.stack = s.stack
  sp : (∀ nnn, i ≠ .callNnn nnn ∧ i ≠ .ret) → t.sp = s.sp
  delay : (∀ x, i ≠ .ldDtVx x) → t.dt = s.dt
  sound : (∀ x, i ≠ .ldStVx x) → t.st = s.st
  keys : (∀ x, i ≠ .ldVxK x) → t.key = s.key
  display : (∀ x y n, i ≠ .cls ∧ i ≠ .drawVxVyN x y n) → t.fb = s.fb ∧ t.out = s.out
  latch : t.fault = s.fault ∨ ∃ f, t = latch f s
  draws : (∀ x kk, i ≠ .rndVxKk x kk) → t.draws = s.draws
  run : t.run = s.run
  schedule : t.schedule = s.schedule

/-- Taking a fault writes the latch alone. -/
theorem frame_latch (i : Instr) (f : Fault) (s : State) : Frame i s (latch f s) := by
  constructor
  case latch => exact .inr ⟨f, rfl⟩
  all_goals simp

/-- The effect of an instruction, its values left open, shows which parts it leaves alone. -/
theorem effect_frame {i : Instr} {s t : State} (h : Effect i s t) : Frame i s t := by
  cases i with
  | sysNnn => exact h.elim
  | cls | jmpNnn | jmpV0Nnn | rndVxKk | ldVxImem | ldDtVx | ldStVx | drawVxVyN =>
    obtain rfl := h
    constructor <;> simp +contextual [writesRegister]
  | ret | callNnn =>
    obtain ⟨k, -, rfl⟩ := h
    constructor <;> simp [writesRegister]
  | seVxKk | sneVxKk | seVxVy | sneVxVy | skpVx | sknpVx =>
    obtain rfl | rfl := h <;> constructor <;> simp [writesRegister]
  | ldINnn | addIVx | ldFVx =>
    obtain ⟨a, rfl⟩ := h
    constructor <;> simp [writesRegister]
  | ldBVx | ldImemVx =>
    obtain ⟨-, rfl⟩ := h
    constructor <;> simp [writesRegister]
  | ldVxK =>
    obtain rfl | ⟨k, rfl⟩ := h <;> constructor <;> simp +contextual [writesRegister]
  | ldVxKk | addVxKk | ldVxVy | orVxVy | andVxVy | xorVxVy | ldVxDt =>
    obtain ⟨b, rfl⟩ := h
    constructor <;> simp +contextual [writesRegister]
  | addVxVy | subVxVy | subnVxVy | shrVx | shlVx =>
    obtain ⟨b, f, rfl⟩ := h
    constructor <;> simp +contextual [writesRegister]

theorem exec_frame {i : Instr} {s t : State} (h : exec i s = .next t) : Frame i s t := by
  obtain ⟨f, rfl⟩ | heffect := exec_cases h
  · exact frame_latch i f s
  · exact effect_frame heffect

/-- An instruction that the spec lists for no fault leaves the latch as it is (60_exceptions.md R221). -/
theorem exec_fault_of_not_canFault {i : Instr} {s t : State} (hi : canFault i = false) (h : exec i s = .next t) :
    t.fault = s.fault := by
  cases i with
  | sysNnn | callNnn | ret | ldBVx | ldImemVx | ldVxImem | drawVxVyN | skpVx | sknpVx => cases hi
  | ldVxK =>
    simp only [exec, execLdVxK] at h
    split at h <;> cases h <;> rfl
  | _ => cases h; rfl

/-- The flag writers and the instructions with the destination VF are the only ones that can write VF (10_state.md R22, R25). -/
theorem writesRegister_regF_eq_false {i : Instr}
    (hflag : ∀ x y n, i ≠ .addVxVy x y ∧ i ≠ .subVxVy x y ∧ i ≠ .subnVxVy x y ∧ i ≠ .shrVx x y ∧ i ≠ .shlVx x y ∧
      i ≠ .drawVxVyN x y n)
    (hdest : ∀ kk y, i ≠ .ldVxKk 15 kk ∧ i ≠ .addVxKk 15 kk ∧ i ≠ .ldVxVy 15 y ∧ i ≠ .orVxVy 15 y ∧ i ≠ .andVxVy 15 y ∧
      i ≠ .xorVxVy 15 y ∧ i ≠ .rndVxKk 15 kk ∧ i ≠ .ldVxDt 15 ∧ i ≠ .ldVxK 15 ∧ i ≠ .ldVxImem 15) :
    writesRegister i 15 = false := by
  cases i with
  | addVxVy | subVxVy | subnVxVy | shrVx | shlVx | drawVxVyN => simp at hflag
  | ldVxImem x =>
    refine decide_eq_false fun hx => ?_
    obtain rfl : x = 15 := le_antisymm (Fin.le_last x) hx
    simp at hdest
  | ldVxKk | addVxKk | ldVxVy | orVxVy | andVxVy | xorVxVy | rndVxKk | ldVxDt | ldVxK =>
    refine decide_eq_false ?_
    rintro rfl
    simp at hdest
  | _ => rfl

/-- Settles O19: the frame of each instruction's effect, with the two lists of the spec for VF and for the faults. -/
theorem writersOfEachPart : Obligations.WritersOfEachPart := by
  intro i s t h
  have hframe := exec_frame h
  exact ⟨hframe.memory, hframe.registers, hframe.index, hframe.stack, hframe.sp, hframe.delay, hframe.sound, hframe.keys,
    hframe.display, fun hflag hdest => hframe.registers 15 (writesRegister_regF_eq_false hflag hdest),
    fun hi => exec_fault_of_not_canFault hi h, hframe.draws, hframe.run, hframe.schedule⟩

/-! ## The output log (O20) -/

/-- Settles O20: a fault leaves OUT alone; CLS and the draw emit the screen they leave; the other instructions are no writers of
OUT. -/
theorem frameReadyEmission : Obligations.FrameReadyEmission := by
  intro i s t hs h
  obtain ⟨f, rfl⟩ | heffect := exec_cases h
  · simp
  cases i with
  | cls | drawVxVyN =>
    obtain rfl := heffect
    simp [hs]
  | _ =>
    obtain ⟨-, hout⟩ := (effect_frame heffect).display (by simp)
    simp [hout]

/-! ## What no instruction can read (O18) -/

/-- The two outcomes, where both are next states, are the same to the program. -/
def SameOutcome (r r' : Result) : Prop := ∀ t t', r = .next t → r' = .next t' → SameToProgram t t'

theorem sameOutcome_next {s s' : State} (h : SameToProgram s s') : SameOutcome (.next s) (.next s') := by
  rintro t t' ⟨⟩ ⟨⟩
  exact h

theorem sameOutcome_jumpTo {s s' : State} (a : Word) (h : SameToProgram s s') :
    SameOutcome (jumpTo a s) (jumpTo a s') := sameOutcome_next { h with pc := rfl }

theorem sameOutcome_advance {s s' : State} (h : SameToProgram s s') : SameOutcome (advance s) (advance s') := by
  rw [advance, advance, h.pc]
  exact sameOutcome_jumpTo _ h

theorem sameOutcome_skipIf {s s' : State} (c : Bool) (h : SameToProgram s s') :
    SameOutcome (skipIf c s) (skipIf c s') := by
  rw [skipIf, skipIf, h.pc]
  exact sameOutcome_jumpTo _ h

theorem sameOutcome_raise {s s' : State} (f f' : Fault) (h : SameToProgram s s') :
    SameOutcome (raise f s) (raise f' s') := sameOutcome_next { h with }

theorem sameOutcome_guardRange {s s' : State} {k k' : Result} (a n : Nat) (kind : AccessKind) (h : SameToProgram s s')
    (hk : SameOutcome k k') : SameOutcome (guardRange a n kind s k) (guardRange a n kind s' k') := by
  unfold guardRange
  split
  · exact hk
  · exact sameOutcome_raise _ _ h

theorem sameOutcome_dite {c : Prop} [Decidable c] {a a' : c → Result} {b b' : ¬c → Result}
    (ha : ∀ h, SameOutcome (a h) (a' h)) (hb : ∀ h, SameOutcome (b h) (b' h)) :
    SameOutcome (dite c a b) (dite c a' b') := by
  split
  · exact ha _
  · exact hb _

/-- `s` with other contents in the four parts that no instruction reads. -/
def withHidden (st : Byte) (run : RunState) (fault : Option Fault) (out : List OutEvent) (s : State) : State :=
  { s with st := st, run := run, fault := fault, out := out }

theorem eq_withHidden {s s' : State} (h : SameToProgram s s') : s' = withHidden s'.st s'.run s'.fault s'.out s := by
  cases s
  cases s'
  obtain ⟨⟨⟩, ⟨⟩, ⟨⟩, ⟨⟩, ⟨⟩, ⟨⟩, ⟨⟩, ⟨⟩, ⟨⟩, ⟨⟩, ⟨⟩⟩ := h
  rfl

section
variable (st : Byte) (run : RunState) (fault : Option Fault) (out : List OutEvent) (s : State)

theorem same_withHidden : SameToProgram s (withHidden st run fault out s) := by constructor <;> rfl

/-- A key skip reads its register and the slot that the register names. -/
theorem sameOutcome_keySkip (x : Idx) (c : Bool → Bool) :
    SameOutcome (withKey x s fun p => skipIf (c p) s)
      (withKey x (withHidden st run fault out s) fun p => skipIf (c p) (withHidden st run fault out s)) := by
  have hsame := same_withHidden st run fault out s
  have hreg : getV (withHidden st run fault out s) x = getV s x := rfl
  unfold withKey
  rw [hreg]
  cases keyOperand (getV s x) with
  | ok j => exact sameOutcome_skipIf (c (getKey s j)) hsame
  | error f => exact sameOutcome_raise f f hsame

/-- No instruction reads the hidden parts: what it tests and what it writes to the rest are computed from the rest. -/
theorem sameOutcome_exec (i : Instr) : SameOutcome (exec i s) (exec i (withHidden st run fault out s)) := by
  have hsame := same_withHidden st run fault out s
  cases i with
  | sysNnn => exact sameOutcome_raise _ _ hsame
  | jmpNnn | jmpV0Nnn => exact sameOutcome_jumpTo _ hsame
  | seVxKk | sneVxKk | seVxVy | sneVxVy => exact sameOutcome_skipIf _ hsame
  | skpVx x => exact sameOutcome_keySkip st run fault out s x id
  | sknpVx x => exact sameOutcome_keySkip st run fault out s x not
  | ret =>
    exact sameOutcome_dite (fun _ => sameOutcome_raise _ _ hsame) fun _ => sameOutcome_next (by constructor <;> rfl)
  | callNnn =>
    exact sameOutcome_dite (fun _ => sameOutcome_next (by constructor <;> rfl)) fun _ => sameOutcome_raise _ _ hsame
  | ldBVx | ldImemVx | ldVxImem | drawVxVyN =>
    exact sameOutcome_guardRange _ _ _ hsame (sameOutcome_advance (by constructor <;> rfl))
  | ldVxK x =>
    have hkey : lowestKey (withHidden st run fault out s) = lowestKey s := rfl
    simp only [exec, execLdVxK, hkey]
    cases lowestKey s with
    | some k => exact sameOutcome_advance (by constructor <;> rfl)
    | none => exact sameOutcome_next hsame
  | _ => exact sameOutcome_advance (by constructor <;> rfl)

end

/-- Settles O18: a state that differs at most in the hidden parts is the other with new contents there. -/
theorem programCannotSeeHiddenState : Obligations.ProgramCannotSeeHiddenState := by
  intro i s s' t t' hsame h h'
  rw [eq_withHidden hsame] at h'
  exact sameOutcome_exec s'.st s'.run s'.fault s'.out s i t t' h h'

end Sys2Proof.Proofs.ExecFrame
end

section
/-! The statements about steps and moves: what a CPU step does, what is enabled, what every step keeps (30_encoding.md R90,
60_exceptions.md R228 to R244). -/

namespace Sys2Proof.Proofs.Stepping

open Sys2Proof Sys2Proof.Machine Sys2Proof.Proofs.ExecFrame

/-! ## The CPU step -/

theorem cpuStep_of_enabled {s : State} {op : Word} (h : s.enabled = true) (hfetch : fetch s = .ok op) :
    cpuStep s = runWord op s := by
  rw [cpuStep, if_pos h, hfetch]

theorem cpuStep_of_fetch_error {s : State} {f : Fault} (h : s.enabled = true) (hfetch : fetch s = .error f) :
    cpuStep s = .next (latch f s) := by
  rw [cpuStep, if_pos h, hfetch]
  exact raise_eq f s

theorem cpuStep_of_disabled {s : State} (h : ¬ s.enabled = true) : cpuStep s = .next s := if_neg h

theorem runWord_of_some {op : Word} {i : Instr} (h : decodeWord op = some i) (s : State) : runWord op s = exec i s := by
  rw [runWord, h]

theorem runWord_of_none {op : Word} (h : decodeWord op = none) (s : State) :
    runWord op s = .next (latch (.unrecognizedOpcode op) s) := by
  rw [runWord, h]
  exact raise_eq _ s

/-- What a CPU step can do: nothing where it is not enabled, take a fault, or run an instruction fetched from within memory. -/
theorem cpuStep_cases (s : State) :
    cpuStep s = .next s ∨ (s.enabled = true ∧ ∃ f, cpuStep s = .next (latch f s)) ∨
      (s.enabled = true ∧ s.pc.toNat ≤ 4094 ∧ ∃ i, cpuStep s = exec i s) := by
  by_cases h : s.enabled = true
  · obtain ⟨hpc, hfetch⟩ | ⟨-, hfetch⟩ := fetch_cases s
    · rw [cpuStep_of_enabled h hfetch]
      cases hi : decodeWord (wordAt s.mem s.pc.toNat) with
      | some i => exact .inr (.inr ⟨h, hpc, i, runWord_of_some hi s⟩)
      | none => exact .inr (.inl ⟨h, _, runWord_of_none hi s⟩)
    · exact .inr (.inl ⟨h, _, cpuStep_of_fetch_error h hfetch⟩)
  · exact .inl (cpuStep_of_disabled h)

/-! ## The CPU's turn -/

theorem enabled_of {s : State} (hrun : s.run = .running) (hfault : s.fault = none) : s.enabled = true :=
  (State.enabled_iff s).2 ⟨hrun, hfault⟩

/-- Bytes that decode to an instruction join to a word that does. -/
theorem decodeWord_of_decode {hi lo : Byte} {rest rest' : List Byte} {i : Instr}
    (h : decode (hi :: lo :: rest) = .ok i rest') : decodeWord (joinBytes hi lo) = some i := by
  simp only [decode] at h
  split at h <;> cases h
  assumption

/-- What a CPU step answers whatever is scheduled, the step answers on the CPU's turn: with nothing scheduled, or with its move
first in the schedule and taken off it. -/
theorem step_of_cpu_turn {s : State} {f : State → Result}
    (h : ∀ later, cpuStep (setSchedule later s) = f (setSchedule later s)) :
    (s.schedule = [] → step s = f s) ∧ (∀ later, s.schedule = .cpu :: later → step s = f (setSchedule later s)) :=
  ⟨fun hs => (step_of_no_schedule hs).trans (h s.schedule), fun later hs => (step_of_schedule hs).trans (h later)⟩

/-- Settles O6: the fetched word is what the two bytes join to; taking a move off the schedule changes neither. -/
theorem stepRunsDecodedInstruction : Obligations.StepRunsDecodedInstruction := by
  intro s i rest hrun hfault hpc hdecode
  have hword : decodeWord (wordAt s.mem s.pc.toNat) = some i := decodeWord_of_decode hdecode
  refine step_of_cpu_turn (f := exec i) fun later => ?_
  rw [cpuStep_of_enabled (s := setSchedule later s) (enabled_of hrun hfault) (MemoryFamily.fetch_eq_wordAt hpc)]
  exact runWord_of_some hword (setSchedule later s)

/-- Settles O8: the fetch answers the error, `max pc 4096` being the lowest address that does not exist. -/
theorem fetchBeyondMemoryFaults : Obligations.FetchBeyondMemoryFaults := by
  intro s hrun hfault hpc taken
  have hmax : max s.pc.toNat 4096 = if 4095 < s.pc.toNat then s.pc.toNat else 4096 := by
    split <;> omega
  refine step_of_cpu_turn (f := fun u => .next (latch taken u)) fun later => ?_
  obtain ⟨hle, -⟩ | ⟨-, hfetch⟩ := fetch_cases (setSchedule later s)
  · exact absurd hle (Nat.not_le_of_lt hpc)
  · rw [setSchedule_pc, hmax] at hfetch
    exact cpuStep_of_fetch_error (enabled_of hrun hfault) hfetch

/-- Settles O9: the fetched word is run, and no descriptor reads it. -/
theorem unrecognizedWordFaults : Obligations.UnrecognizedWordFaults := by
  intro s op hrun hfault hfetch hnone
  refine step_of_cpu_turn (f := fun u => .next (latch (.unrecognizedOpcode op) u)) fun later => ?_
  rw [cpuStep_of_enabled (s := setSchedule later s) (enabled_of hrun hfault) hfetch]
  exact runWord_of_none hnone (setSchedule later s)

/-! ## Every step answers a next state -/

theorem cpuStep_next (s : State) : ∃ t, cpuStep s = .next t := by
  obtain e | ⟨-, f, e⟩ | ⟨-, -, i, e⟩ := cpuStep_cases s
  · exact ⟨s, e⟩
  · exact ⟨latch f s, e⟩
  · rw [e]
    exact exec_next i s

theorem move_next (m : Move) (s : State) : ∃ t, move m s = .next t := by
  cases m with
  | cpu => exact cpuStep_next s
  | _ => exact ⟨_, rfl⟩

/-- Settles O10: the step is a move, and every move answers a next state. -/
theorem everyStepAnswersNext : Obligations.EveryStepAnswersNext := fun s => move_next (nextMove s).1 (nextMove s).2

/-! ## What is enabled -/

theorem not_enabled_of {s : State} (h : s.run ≠ .running ∨ s.fault ≠ none) : ¬ s.enabled = true := by
  rw [State.enabled_iff]
  tauto

theorem tick_of_disabled {s : State} (h : ¬ s.enabled = true) : tick s = s := if_neg h

theorem tick_of_enabled {s : State} (h : s.enabled = true) :
    tick s = setSt (countDown s.st) (setDt (countDown s.dt) s) := if_pos h

theorem unlessExit_of_exit {s : State} (h : s.run = .exit) (s' : State) : unlessExit s s' = s := if_pos h

theorem move_of_disabled {s : State} (h : ¬ s.enabled = true) : move .cpu s = .next s ∧ move .tick s = .next s :=
  ⟨cpuStep_of_disabled h, congrArg _ (tick_of_disabled h)⟩

theorem requestExit_of_exit {s : State} (h : s.run = .exit) : requestExit s = s := by
  cases s
  cases h
  rfl

/-- In Exit no move changes anything (60_exceptions.md R244). -/
theorem move_of_exit {s : State} (h : s.run = .exit) (m : Move) : move m s = .next s := by
  have hdisabled := move_of_disabled (not_enabled_of (.inl (h ▸ by decide : s.run ≠ .running)))
  cases m with
  | cpu => exact hdisabled.1
  | tick => exact hdisabled.2
  | requestExit => exact congrArg _ (requestExit_of_exit h)
  | keyPressed | keyReleased | resize | loadProgram => exact congrArg _ (unlessExit_of_exit h _)

/-- Settles O12: the two moves test the enabling condition, and the events of the host test for Exit. -/
theorem disabledMovesChangeNothing : Obligations.DisabledMovesChangeNothing :=
  fun _ => ⟨fun h => move_of_disabled (not_enabled_of h), move_of_exit⟩

/-- In Exit a step takes a move off the schedule and changes nothing else. -/
theorem step_of_exit {s : State} (h : s.run = .exit) : step s = .next (setSchedule (s.schedule.drop 1) s) := by
  cases hs : s.schedule with
  | nil =>
    rw [step_of_no_schedule hs, List.drop_nil, ← hs]
    exact move_of_exit h .cpu
  | cons m rest =>
    rw [step_of_schedule hs]
    exact move_of_exit (s := setSchedule rest s) h m

theorem run_succ {s t : State} (h : step s = .next t) (n : Nat) : core.run (n + 1) s = core.run n t := by
  simp only [Host.Core.run, show core.step s = .next t from h]

/-- Settles O13, by induction on the number of steps: each takes one more move off the schedule. -/
theorem exitIsTerminal : Obligations.ExitIsTerminal := by
  intro n
  induction n with
  | zero => intro s _; rfl
  | succ n ih =>
    intro s h
    rw [run_succ (step_of_exit h), ih (setSchedule (s.schedule.drop 1) s) h, setSchedule_schedule, List.drop_drop,
      Nat.add_comm]
    rfl

/-! ## What a move can do -/

theorem unlessExit_cases (s s' : State) : unlessExit s s' = s ∨ (s.run ≠ .exit ∧ unlessExit s s' = s') := by
  by_cases h : s.run = .exit
  · exact .inl (unlessExit_of_exit h s')
  · exact .inr ⟨h, KeysFamily.unlessExit_of_ne h s'⟩

/-- Everything a move can answer from `s`: the state itself, where it is not enabled, or its effect. -/
inductive MoveEffect (s : State) : Move → State → Prop
  | idle (m : Move) : MoveEffect s m s
  | fault (f : Fault) (enabled : s.enabled = true) : MoveEffect s .cpu (latch f s)
  | instruction (i : Instr) (t : State) (enabled : s.enabled = true) (pc : s.pc.toNat ≤ 4094) (effect : Effect i s t) :
      MoveEffect s .cpu t
  | tick (enabled : s.enabled = true) : MoveEffect s .tick (setSt (countDown s.st) (setDt (countDown s.dt) s))
  | press (k : Idx) : MoveEffect s (.keyPressed k) (setKey k true s)
  | release (k : Idx) : MoveEffect s (.keyReleased k) (setKey k false s)
  | clear (w h : Nat) : MoveEffect s (.resize w h) (setScreen blankScreen s)
  | exit : MoveEffect s .requestExit (setRun .exit s)
  | load (bytes : List Byte) (run : s.run ≠ .exit) (fits : bytes.length ≤ 3584) :
      MoveEffect s (.loadProgram bytes) (install bytes s)
  | reject (bytes : List Byte) (tooLong : 3584 < bytes.length) : MoveEffect s (.loadProgram bytes) (emit .loadError s)

theorem cpuStep_effect {s t : State} (h : cpuStep s = .next t) : MoveEffect s .cpu t := by
  obtain e | ⟨henabled, f, e⟩ | ⟨henabled, hpc, i, e⟩ := cpuStep_cases s
  · obtain rfl := next_inj (h.symm.trans e)
    exact .idle .cpu
  · obtain rfl := next_inj (h.symm.trans e)
    exact .fault f henabled
  · obtain ⟨f, rfl⟩ | heffect := exec_cases (e.symm.trans h)
    · exact .fault f henabled
    · exact .instruction i t henabled hpc heffect

theorem tick_effect (s : State) : MoveEffect s .tick (tick s) := by
  by_cases h : s.enabled = true
  · rw [tick_of_enabled h]
    exact .tick h
  · rw [tick_of_disabled h]
    exact .idle .tick

/-- An event that does nothing after Exit has its effect or leaves the state. -/
theorem unlessExit_effect {m : Move} {s s' : State} (h : s.run ≠ .exit → MoveEffect s m s') :
    MoveEffect s m (unlessExit s s') := by
  obtain e | ⟨hrun, e⟩ := unlessExit_cases s s' <;> rw [e]
  · exact .idle m
  · exact h hrun

theorem load_effect {bytes : List Byte} {s : State} (hrun : s.run ≠ .exit) :
    MoveEffect s (.loadProgram bytes)
      (if bytes.length ≤ Config.maxProg then install bytes s else emit .loadError s) := by
  split
  · next hfits => exact .load bytes hrun hfits
  · next hlong => exact .reject bytes (Nat.lt_of_not_le hlong)

theorem move_effect {m : Move} {s t : State} (h : move m s = .next t) : MoveEffect s m t := by
  cases m with
  | cpu => exact cpuStep_effect h
  | tick => exact next_inj h ▸ tick_effect s
  | keyPressed k => exact next_inj h ▸ unlessExit_effect fun _ => .press k
  | keyReleased k => exact next_inj h ▸ unlessExit_effect fun _ => .release k
  | resize w ht => exact next_inj h ▸ unlessExit_effect fun _ => .clear w ht
  | requestExit => exact next_inj h ▸ .exit
  | loadProgram bytes => exact next_inj h ▸ unlessExit_effect load_effect

/-- A CPU step that latches a fault where none was took the fault: an instruction's effect leaves the latch. -/
theorem cpuStep_latches {s t : State} (hs : s.fault = none) (h : cpuStep s = .next t) (ht : t.fault ≠ none) :
    ∃ f, t = latch f s := by
  cases cpuStep_effect h with
  | idle => exact absurd hs ht
  | fault f => exact ⟨f, rfl⟩
  | instruction i _ _ _ heffect =>
    exact (effect_frame heffect).latch.resolve_left fun hkeep => ht (hkeep.trans hs)

/-- Settles O11: the step has latched the fault and nothing else; with the latch set neither of the two moves is enabled. -/
theorem faultsArePrecise : Obligations.FaultsArePrecise := by
  intro s t hs h ht
  have hdisabled := not_enabled_of (.inr ht)
  refine ⟨?_, cpuStep_of_disabled hdisabled, tick_of_disabled hdisabled⟩
  obtain ⟨f, rfl⟩ := cpuStep_latches hs h ht
  rfl

/-- Settles O14: move by move; an installed program and an exit request write RUN, and nothing else does. -/
theorem runStateTransitions : Obligations.RunStateTransitions := by
  intro m s t h
  cases move_effect h with
  | load bytes hrun => exact .inr (.inl ⟨bytes, rfl, hrun, rfl⟩)
  | exit => exact .inr (.inr ⟨rfl, rfl⟩)
  | instruction i _ _ _ heffect => exact .inl (effect_frame heffect).run
  | idle | fault | tick | press | release | clear | reject => exact .inl rfl

/-- Settles O15: with a fault latched the CPU step and the tick are not enabled, and the events of the host but a load write RUN,
KEY and FB alone. -/
theorem faultFreezesUntilLoad : Obligations.FaultFreezesUntilLoad := by
  intro m s t hfault h hload
  have hdisabled := not_enabled_of (s := s) (.inr hfault)
  cases move_effect h with
  | fault _ henabled | instruction _ _ henabled | tick henabled => exact absurd henabled hdisabled
  | load bytes | reject bytes => exact absurd rfl (hload bytes)
  | idle | press | release | clear | exit => simp

/-! ## The invariant -/

/-- Settles O17: memory lists no cell, pc is 0x200, and the sixteen stack entries are 0. -/
theorem resetMeetsInvariant : Obligations.ResetMeetsInvariant where
  memory := reset_memory_wf
  pcBound := by decide
  stackBound := by decide

/-- How far an advance or a skip can take pc from where a word can be fetched. -/
theorem toNat_add_le {pc a : Word} (hpc : pc.toNat ≤ 4094) : (pc + a).toNat ≤ 4094 + a.toNat := by
  rw [BitVec.toNat_add]
  exact (Nat.mod_le _ _).trans (Nat.add_le_add_right hpc _)

theorem inv_setSchedule {s : State} (h : s.Inv) (ms : List Move) : (setSchedule ms s).Inv :=
  ⟨h.memory, h.pcBound, h.stackBound⟩

/-- An instruction that goes on to the next word, with memory canonical and the stack as it was, keeps the invariant. -/
theorem inv_advance {s t : State} (h : s.Inv) (hpc : s.pc.toNat ≤ 4094) (hmem : Memory.wf t.mem = true)
    (hstack : t.stack = s.stack) : (setPc (s.pc + 2) t).Inv where
  memory := hmem
  pcBound := (toNat_add_le hpc).trans (by decide)
  stackBound := fun k => (congrArg (fun v => (v.get k).toNat) hstack).trans_le (h.stackBound k)

/-- A jump keeps the invariant when its target is within the bound. -/
theorem inv_setPc {s : State} {a : Word} (h : s.Inv) (ha : a.toNat ≤ 0x10FE) : (setPc a s).Inv :=
  ⟨h.memory, ha, h.stackBound⟩

theorem inv_call {s : State} (h : s.Inv) (hpc : s.pc.toNat ≤ 4094) (n : Fin 17) (k : Idx) (nnn : Imm12) :
    (setPc (addrOf nnn) (setSp n (setStack k (s.pc + 2) s))).Inv where
  memory := h.memory
  pcBound := by
    have hnnn := nnn.isLt
    rw [setPc_pc, addrOf_toNat]
    omega
  stackBound := by
    intro j
    rw [setPc_stack, setSp_stack, setStack_stack, vector_get_set]
    split
    · exact toNat_add_le hpc
    · exact h.stackBound j

theorem effect_inv {i : Instr} {s t : State} (h : s.Inv) (hpc : s.pc.toNat ≤ 4094) (he : Effect i s t) : t.Inv := by
  cases i with
  | sysNnn => exact he.elim
  | cls | rndVxKk | ldVxImem | ldDtVx | ldStVx | drawVxVyN =>
    obtain rfl := he
    exact inv_advance h hpc h.memory rfl
  | ldINnn | addIVx | ldFVx | ldVxKk | addVxKk | ldVxVy | orVxVy | andVxVy | xorVxVy | ldVxDt =>
    obtain ⟨b, rfl⟩ := he
    exact inv_advance h hpc h.memory rfl
  | addVxVy | subVxVy | subnVxVy | shrVx | shlVx =>
    obtain ⟨b, f, rfl⟩ := he
    exact inv_advance h hpc h.memory rfl
  | seVxKk | sneVxKk | seVxVy | sneVxVy | skpVx | sknpVx =>
    obtain rfl | rfl := he <;> exact inv_setPc h ((toNat_add_le hpc).trans (by decide))
  | ldVxK =>
    obtain rfl | ⟨k, rfl⟩ := he
    · exact h
    · exact inv_advance h hpc h.memory rfl
  | ldBVx | ldImemVx =>
    obtain ⟨hrange, rfl⟩ := he
    exact inv_advance h hpc (Memory.writeBytes_wf (by simpa using hrange) h.memory) rfl
  | jmpNnn nnn =>
    obtain rfl := he
    have hnnn := nnn.isLt
    exact inv_setPc h (by rw [addrOf_toNat]; omega)
  | jmpV0Nnn nnn =>
    obtain rfl := he
    have hnnn := nnn.isLt
    have hv0 := (getV s 0).isLt
    exact inv_setPc h (by rw [ControlFlowFamily.indexedTarget_toNat]; omega)
  | ret =>
    obtain ⟨k, -, rfl⟩ := he
    exact inv_setPc ⟨h.memory, h.pcBound, h.stackBound⟩ ((h.stackBound k).trans (by decide))
  | callNnn nnn =>
    obtain ⟨k, -, rfl⟩ := he
    exact inv_call h hpc _ k nnn

theorem install_inv {bytes : List Byte} (h : bytes.length ≤ 3584) (s : State) : (install bytes s).Inv where
  memory := Memory.writeBytes_wf (by simp; omega) rfl
  pcBound := (by decide : (0x200 : Word).toNat ≤ 0x10FE)
  stackBound := resetMeetsInvariant.stackBound

theorem move_inv {m : Move} {s t : State} (hs : s.Inv) (h : move m s = .next t) : t.Inv := by
  cases move_effect h with
  | instruction i _ _ hpc heffect => exact effect_inv hs hpc heffect
  | load bytes _ hfits => exact install_inv hfits s
  | idle | fault | tick | press | release | clear | exit | reject => exact ⟨hs.memory, hs.pcBound, hs.stackBound⟩

/-- Settles O16: taking a move off the schedule keeps the invariant, and so does every move. -/
theorem everyStepKeepsInvariant : Obligations.EveryStepKeepsInvariant := by
  intro s t hs h
  cases hsched : s.schedule with
  | nil => exact move_inv (m := .cpu) hs ((step_of_no_schedule hsched).symm.trans h)
  | cons m rest => exact move_inv (inv_setSchedule hs rest) ((step_of_schedule hsched).symm.trans h)

/-! ## Placing a word (log entry 11) -/

theorem placeWord_pc_le (w : Word) (s : State) : (placeWord w s).pc.toNat ≤ 4094 := by
  simp only [placeWord]
  split
  · next h =>
    rw [rangeOk_iff] at h
    omega
  · decide

/-- The two bytes that are placed are what the next fetch joins. -/
theorem fetch_placeWord {s : State} (h : Memory.wf s.mem = true) (w : Word) : fetch (placeWord w s) = .ok w := by
  have hpc := placeWord_pc_le w s
  have hread := Memory.read_writeBytes (vs := [hiByte w, loByte w]) (a := (placeWord w s).pc.toNat) (by simp; omega) h
  have hhi : Memory.read (placeWord w s).mem (placeWord w s).pc.toNat = hiByte w := by
    refine (hread _).trans ?_
    simp
  have hlo : Memory.read (placeWord w s).mem ((placeWord w s).pc.toNat + 1) = loByte w := by
    refine (hread _).trans ?_
    simp
  rw [MemoryFamily.fetch_eq_wordAt hpc, wordAt, hhi, hlo, joinBytes_hi_lo]

/-- A table word decodes as the word that its two bytes join to. -/
theorem decodeWord_of_decodeTableWord {nbits w : Nat} {i : Instr} (h : decodeTableWord nbits w = some i) :
    decodeWord (tableWord nbits w) = some i := by
  simp only [decodeTableWord] at h
  split at h <;> cases h
  next hdecode => exact joinBytes_hi_lo (tableWord nbits w) ▸ decodeWord_of_decode hdecode

/-- Settles O59: the placed state is enabled with nothing scheduled, and its fetch answers the word. -/
theorem placedWordIsRunNext : Obligations.PlacedWordIsRunNext := by
  intro s w i hwf hdecode
  have henabled : (s.withFetchWord 16 w).enabled = true := enabled_of rfl rfl
  rw [step_of_no_schedule rfl, cpuStep_of_enabled henabled (fetch_placeWord hwf (tableWord 16 w))]
  exact runWord_of_some (decodeWord_of_decodeTableWord hdecode) _

end Sys2Proof.Proofs.Stepping
end

section
/-! What one write leaves unchanged, and the statements about register, skip, stack and index instructions. -/

namespace Sys2Proof.Proofs.Instructions

open Sys2Proof Sys2Proof.Machine

/-! ## The frame of each write -/

/-- No frame speaks of pc. -/
theorem unchanged_setPc_of {parts : List Part} {regs : List Idx} {s t : State} (h : Unchanged parts regs s t) (a : Word) :
    Unchanged parts regs s (setPc a t) :=
  ⟨h.registers, h.memory, h.index, h.stack, h.delay, h.sound, h.keys, h.screen, h.log, h.latch, h.draws, h.run, h.schedule⟩

theorem unchanged_setV (x : Idx) (b : Byte) (s : State) : Unchanged [] [x] s (setV x b s) := by
  apply unchanged_of <;> simp +contextual

theorem unchanged_setVFlag (x : Idx) (b f : Byte) (s : State) : Unchanged [] [x, 15] s (setVFlag x b f s) := by
  apply unchanged_of <;> simp +contextual [regF]

theorem unchanged_setI (a : Word) (s : State) : Unchanged [.index] [] s (setI a s) := by
  apply unchanged_of <;> simp

theorem unchanged_setMem (m : Memory) (s : State) : Unchanged [.memory] [] s (setMem m s) := by
  apply unchanged_of <;> simp

theorem unchanged_setDt (b : Byte) (s : State) : Unchanged [.delay] [] s (setDt b s) := by
  apply unchanged_of <;> simp

theorem unchanged_setSt (b : Byte) (s : State) : Unchanged [.sound] [] s (setSt b s) := by
  apply unchanged_of <;> simp

/-! ## An instruction that writes registers and goes on -/

/-- A write of one register: the value in it, pc + 2, nothing else. -/
theorem advance_setV (x : Idx) (b : Byte) (s : State) :
    ∃ t, advance (setV x b s) = .next t ∧ getV t x = b ∧ t.pc = s.pc + 2 ∧ Unchanged [] [x] s t :=
  ⟨setPc (s.pc + 2) (setV x b s), rfl, by simp, rfl, unchanged_setPc_of (unchanged_setV x b s) _⟩

/-- A write of a result and then VF: the flag stands, and the result where it has another place. -/
theorem advance_setVFlag (x : Idx) (b f : Byte) (s : State) :
    ∃ t, advance (setVFlag x b f s) = .next t ∧ (x ≠ 15 → getV t x = b) ∧ getV t 15 = f ∧ t.pc = s.pc + 2 ∧
      Unchanged [] [x, 15] s t := by
  refine ⟨setPc (s.pc + 2) (setVFlag x b f s), rfl, ?_, ?_, rfl, unchanged_setPc_of (unchanged_setVFlag x b f s) _⟩
  · intro hx
    simp [regF, hx]
  · simp [regF]

/-- Settles O21: each of the three is one write of a register. -/
theorem registerLoads : Obligations.RegisterLoads := fun x y kk s =>
  ⟨advance_setV x kk s, advance_setV x (getV s y) s, advance_setV x s.dt s⟩

/-- Settles O22: the write of the 8-bit sum. -/
theorem addImmediateWrapsWithoutFlag : Obligations.AddImmediateWrapsWithoutFlag := by
  intro x kk s
  obtain ⟨t, h, hx, hrest⟩ := advance_setV x (getV s x + kk) s
  exact ⟨t, h, by rw [hx, BitVec.toNat_add], hrest⟩

/-- Settles O23: the writes of the three bitwise results, read bit by bit. -/
theorem logicIsBitwise : Obligations.LogicIsBitwise := by
  intro x y s
  refine ⟨?_, ?_, ?_⟩
  · obtain ⟨t, h, hx, hrest⟩ := advance_setV x (getV s x ||| getV s y) s
    exact ⟨t, h, fun b => by rw [hx, BitVec.getLsbD_or], hrest⟩
  · obtain ⟨t, h, hx, hrest⟩ := advance_setV x (getV s x &&& getV s y) s
    exact ⟨t, h, fun b => by rw [hx, BitVec.getLsbD_and], hrest⟩
  · obtain ⟨t, h, hx, hrest⟩ := advance_setV x (getV s x ^^^ getV s y) s
    exact ⟨t, h, fun b => by rw [hx, BitVec.getLsbD_xor], hrest⟩

theorem flagOf_decide (p : Prop) [Decidable p] : flagOf (decide p) = if p then 1 else 0 := by
  simp [flagOf]

/-- The 8-bit difference is the integer difference modulo 256. -/
theorem toNat_sub_eq_emod (a b : Byte) : ((a - b).toNat : Int) = ((a.toNat : Int) - b.toNat) % 256 := by
  have hb := b.isLt
  rw [BitVec.toNat_sub]
  omega

/-- Settles O24: the 8-bit sum, then the carry. -/
theorem addSetsCarry : Obligations.AddSetsCarry := by
  intro x y s
  obtain ⟨t, h, hx, hflag, hrest⟩ :=
    advance_setVFlag x (getV s x + getV s y) (carryFlag (getV s x) (getV s y)) s
  exact ⟨t, h, fun hne => by rw [hx hne, BitVec.toNat_add], hflag.trans (flagOf_decide _), hrest⟩

/-- Settles O25: the 8-bit difference, then the strict comparison. -/
theorem subtractSetsGreaterFlag : Obligations.SubtractSetsGreaterFlag := by
  intro x y s
  obtain ⟨t, h, hx, hflag, hrest⟩ :=
    advance_setVFlag x (getV s x - getV s y) (subFlag (getV s x) (getV s y)) s
  exact ⟨t, h, fun hne => by rw [hx hne, toNat_sub_eq_emod], hflag.trans (flagOf_decide _), hrest⟩

/-- Settles O26: the 8-bit difference the other way round, then the strict comparison. -/
theorem reverseSubtractSetsLessFlag : Obligations.ReverseSubtractSetsLessFlag := by
  intro x y s
  obtain ⟨t, h, hx, hflag, hrest⟩ :=
    advance_setVFlag x (getV s y - getV s x) (subnFlag (getV s x) (getV s y)) s
  exact ⟨t, h, fun hne => by rw [hx hne, toNat_sub_eq_emod], hflag.trans (flagOf_decide _), hrest⟩

theorem shrFlag_toNat (a : Byte) : (shrFlag a).toNat = a.toNat % 2 := by
  rw [shrFlag, BitVec.toNat_and]
  exact Nat.and_one_is_mod a.toNat

theorem shlFlag_eq (a : Byte) : shlFlag a = if 128 ≤ a.toNat then 0x80 else 0x00 := by
  revert a
  decide

theorem toNat_shiftLeft_one (a : Byte) : (a <<< 1).toNat = 2 * a.toNat % 256 := by
  rw [BitVec.toNat_shiftLeft, Nat.shiftLeft_eq, Nat.mul_comm]

/-- Settles O27: the shift in place, then the bit shifted out, as 0 or 1 by SHR_VX and as it stands by SHL_VX. -/
theorem shiftsKeepRawFlag : Obligations.ShiftsKeepRawFlag := by
  intro x y s
  constructor
  · obtain ⟨t, h, hx, hflag, hrest⟩ := advance_setVFlag x (getV s x >>> 1) (shrFlag (getV s x)) s
    exact ⟨t, h, fun hne => by rw [hx hne, BitVec.toNat_ushiftRight, Nat.shiftRight_one],
      by rw [hflag, shrFlag_toNat], hrest⟩
  · obtain ⟨t, h, hx, hflag, hrest⟩ := advance_setVFlag x (getV s x <<< 1) (shlFlag (getV s x)) s
    exact ⟨t, h, fun hne => by rw [hx hne, toNat_shiftLeft_one], by rw [hflag, shlFlag_eq], hrest⟩

/-- Settles O28: the free byte of this draw, masked, and the draw counted. -/
theorem randomByteIsMasked : Obligations.RandomByteIsMasked := by
  intro x kk s
  refine ⟨setPc (s.pc + 2) (setV x (Config.freeByte s.draws &&& kk) (drawByte s).2), rfl, ?_, rfl, rfl, ?_⟩
  · intro b
    simp
  · apply unchanged_of <;> simp +contextual

/-! ## Skips -/

/-- A skip adds 4 or 2 to pc as its condition says, and changes nothing else. -/
theorem skipIf_spec {c : Bool} {p : Prop} [Decidable p] (h : c = true ↔ p) (s : State) :
    ∃ t, skipIf c s = .next t ∧ t.pc = s.pc + (if p then 4 else 2) ∧ Unchanged [] [] s t := by
  refine ⟨_, skipIf_eq c s, ?_, ControlFlowFamily.unchanged_setPc _ s⟩
  by_cases hp : p
  · simp [hp, h.2 hp]
  · simp [hp, mt h.1 hp]

/-- The same for a skip whose condition is that `p` fails. -/
theorem skipIf_spec_not {c : Bool} {p : Prop} [Decidable p] (h : c = true ↔ ¬ p) (s : State) :
    ∃ t, skipIf c s = .next t ∧ t.pc = s.pc + (if p then 2 else 4) ∧ Unchanged [] [] s t := by
  simpa only [ite_not] using skipIf_spec h s

theorem beq_iff_toNat (a b : Byte) : (a == b) = true ↔ a.toNat = b.toNat := beq_iff_eq.trans BitVec.toNat_inj.symm

theorem bne_iff_toNat (a b : Byte) : (a != b) = true ↔ ¬ a.toNat = b.toNat :=
  bne_iff_ne.trans (not_congr BitVec.toNat_inj.symm)

/-- Settles O36: each of the four is a skip on the comparison of two bytes. -/
theorem skipsAddFourOrTwo : Obligations.SkipsAddFourOrTwo := fun x y kk s =>
  ⟨skipIf_spec (beq_iff_toNat (getV s x) kk) s, skipIf_spec_not (bne_iff_toNat (getV s x) kk) s,
    skipIf_spec (beq_iff_toNat (getV s x) (getV s y)) s, skipIf_spec_not (bne_iff_toNat (getV s x) (getV s y)) s⟩

/-! ## Call, return, SYS -/

/-- Settles O29: the word recorded is the immediate widened. -/
theorem sysFaultsWithItsWord : Obligations.SysFaultsWithItsWord := fun nnn _ => ⟨sysWord nnn, sysWord_toNat nnn, rfl⟩

theorem exec_callNnn (nnn : Imm12) {s : State} (h : s.sp.val < 16) : exec (.callNnn nnn) s =
    .next (setPc (addrOf nnn) (setSp ⟨s.sp.val + 1, by omega⟩ (setStack ⟨s.sp.val, h⟩ (s.pc + 2) s))) := dif_pos h

theorem exec_ret {s : State} {k : Idx} (h : s.sp.val = k.val + 1) :
    exec .ret s = .next (setPc (s.stack.get k) (setSp ⟨k.val, by omega⟩ s)) := by
  refine (dif_neg (by omega)).trans ?_
  simp [h]

/-- Settles O32: the push writes one entry and SP, the jump pc. -/
theorem callPushesReturnAddress : Obligations.CallPushesReturnAddress := by
  intro nnn s h
  refine ⟨_, exec_callNnn nnn h, ?_, ?_, rfl, addrOf_toNat nnn, ?_⟩
  · exact (vector_get_set s.stack ⟨s.sp.val, h⟩ ⟨s.sp.val, h⟩ (s.pc + 2)).trans (if_pos rfl)
  · intro k hk
    exact (vector_get_set s.stack ⟨s.sp.val, h⟩ k (s.pc + 2)).trans (if_neg (Fin.ne_of_val_ne hk))
  · apply unchanged_of <;> simp

/-- Settles O33: the entry is read and SP written, the stack is not. -/
theorem returnPopsIntoPc : Obligations.ReturnPopsIntoPc := by
  intro s k h
  refine ⟨_, exec_ret h, rfl, rfl, rfl, ?_⟩
  apply unchanged_of <;> simp

/-- Settles O34: the two tests of SP. -/
theorem stackLimitsFault : Obligations.StackLimitsFault := by
  intro nnn s
  exact ⟨fun h => dif_neg (by omega), fun h => dif_pos h⟩

/-- Settles O35: the entry that the call pushed is on top of the stack it left, and popping it undoes the count. -/
theorem callThenReturnComesBack : Obligations.CallThenReturnComesBack := by
  intro nnn s t u h hcall hsp hstack
  obtain rfl := next_inj ((exec_callNnn nnn h).symm.trans hcall)
  have hdepth : u.sp.val = s.sp.val + 1 := congrArg Fin.val hsp
  refine ⟨_, exec_ret (k := ⟨s.sp.val, h⟩) hdepth, ?_, rfl⟩
  rw [setPc_pc, hstack]
  exact (vector_get_set s.stack ⟨s.sp.val, h⟩ ⟨s.sp.val, h⟩ (s.pc + 2)).trans (if_pos rfl)

/-! ## The index register and the timers -/

/-- A write of I: the value in it, pc + 2, nothing else. -/
theorem advance_setI (a : Word) (s : State) :
    ∃ t, advance (setI a s) = .next t ∧ t.i = a ∧ t.pc = s.pc + 2 ∧ Unchanged [.index] [] s t :=
  ⟨setPc (s.pc + 2) (setI a s), rfl, rfl, rfl, unchanged_setPc_of (unchanged_setI a s) _⟩

theorem indexSum_toNat (x : Idx) (s : State) : (indexSum x s).toNat = (s.i.toNat + (getV s x).toNat) % 65536 := by
  rw [indexSum, BitVec.toNat_add, BitVec.toNat_setWidth_of_le (by decide)]

theorem glyphAddr_toNat (x : Idx) (s : State) : (glyphAddr x s).toNat = (getV s x).toNat * 5 := by
  have hv := (getV s x).isLt
  rw [glyphAddr, BitVec.toNat_ofNat, glyphBytes_eq]
  omega

/-- Settles O37: each of the three is one write of I. -/
theorem indexInstructions : Obligations.IndexInstructions := by
  intro nnn x s
  refine ⟨?_, ?_, ?_⟩
  · obtain ⟨t, h, hi, hrest⟩ := advance_setI (addrOf nnn) s
    exact ⟨t, h, by rw [hi, addrOf_toNat], hrest⟩
  · obtain ⟨t, h, hi, hrest⟩ := advance_setI (indexSum x s) s
    exact ⟨t, h, by rw [hi, indexSum_toNat], hrest⟩
  · obtain ⟨t, h, hi, hrest⟩ := advance_setI (glyphAddr x s) s
    exact ⟨t, h, by rw [hi, glyphAddr_toNat], hrest⟩

/-- Settles O43: each of the two is one write of its timer. -/
theorem timerWrites : Obligations.TimerWrites := fun x s =>
  ⟨⟨setPc (s.pc + 2) (setDt (getV s x) s), rfl, rfl, rfl, unchanged_setPc_of (unchanged_setDt _ s) _⟩,
    ⟨setPc (s.pc + 2) (setSt (getV s x) s), rfl, rfl, rfl, unchanged_setPc_of (unchanged_setSt _ s) _⟩⟩

/-- A tick takes one from a timer that is not 0: natural subtraction. -/
theorem countDown_toNat (b : Byte) : (countDown b).toNat = b.toNat - 1 := by
  unfold countDown
  split
  · next h =>
    subst h
    rfl
  · next h =>
    have hne : b.toNat ≠ 0 := fun h0 => h (BitVec.eq_of_toNat_eq h0)
    exact BitVec.toNat_sub_of_le (Nat.one_le_iff_ne_zero.2 hne)

/-- Settles O44: an enabled tick writes the two timers. -/
theorem tickCountsDown : Obligations.TickCountsDown := by
  intro s hrun hfault
  have htick := Stepping.tick_of_enabled (Stepping.enabled_of hrun hfault)
  refine ⟨setSt (countDown s.st) (setDt (countDown s.dt) s), congrArg Host.Outcome.next htick, countDown_toNat s.dt,
    countDown_toNat s.st, rfl, ?_⟩
  apply unchanged_of <;> simp

/-! ## Transfers -/

theorem digitsOf_toNat (b : Byte) :
    ((digitsOf b).getD 0 0).toNat = b.toNat / 100 ∧ ((digitsOf b).getD 1 0).toNat = b.toNat / 10 % 10 ∧
      ((digitsOf b).getD 2 0).toNat = b.toNat % 10 := by
  have hb := b.isLt
  refine ⟨?_, ?_, ?_⟩ <;> simp only [digitsOf, List.getD_cons_zero, List.getD_cons_succ, BitVec.toNat_ofNat] <;> omega

/-- A store of a block within memory: the block's bytes inside it, the old bytes outside. -/
theorem read_store_inside {m : Memory} {a : Nat} {vs : List Byte} (ha : a + vs.length ≤ 4096) (h : Memory.wf m = true)
    {k : Nat} (hk : k < vs.length) : Memory.read (Memory.writeBytes m a vs) (a + k) = vs.getD k 0 := by
  rw [Memory.read_writeBytes ha h, if_pos (by omega), Nat.add_sub_cancel_left]

theorem read_store_outside {m : Memory} {a c : Nat} {vs : List Byte} (ha : a + vs.length ≤ 4096) (h : Memory.wf m = true)
    (hc : c < a ∨ a + vs.length ≤ c) : Memory.read (Memory.writeBytes m a vs) c = Memory.read m c := by
  rw [Memory.read_writeBytes ha h, if_neg (by omega)]

/-- Settles O38: the store of the three digits, within memory. -/
theorem bcdStoresThreeDigits : Obligations.BcdStoresThreeDigits := by
  intro x s hwf hi
  have hfits : base s + (digitsOf (getV s x)).length ≤ 4096 := by
    rw [length_digitsOf, base]
    omega
  have hdigit {k : Nat} (hk : k < 3) :
      Memory.read (Memory.writeBytes s.mem (base s) (digitsOf (getV s x))) (base s + k) = (digitsOf (getV s x)).getD k 0 :=
    read_store_inside hfits hwf hk
  obtain ⟨hhundreds, htens, hones⟩ := digitsOf_toNat (getV s x)
  refine ⟨setPc (s.pc + 2) (setMem (Memory.writeBytes s.mem (base s) (digitsOf (getV s x))) s),
    guardRange_ok _ _ _ (.inr hfits), ?_, ?_, ?_, ?_, rfl, unchanged_setPc_of (unchanged_setMem _ s) _⟩
  · exact (congrArg BitVec.toNat (hdigit (k := 0) (by decide))).trans hhundreds
  · exact (congrArg BitVec.toNat (hdigit (k := 1) (by decide))).trans htens
  · exact (congrArg BitVec.toNat (hdigit (k := 2) (by decide))).trans hones
  · exact fun a ha => read_store_outside hfits hwf ha

/-- Settles O39: the store of the dumped registers, within memory. -/
theorem dumpStoresRegistersInclusive : Obligations.DumpStoresRegistersInclusive := by
  intro x s hwf hi
  have hfits : base s + (dumpBytes x s).length ≤ 4096 := by
    rw [length_dumpBytes, base]
    omega
  refine ⟨setPc (s.pc + 2) (setMem (Memory.writeBytes s.mem (base s) (dumpBytes x s)) s),
    guardRange_ok _ _ _ (.inr (by simpa using hfits)), ?_, ?_, rfl, unchanged_setPc_of (unchanged_setMem _ s) _⟩
  · intro k hk
    have hlen : k.val < (dumpBytes x s).length := by
      rw [length_dumpBytes]
      exact Nat.lt_succ_of_le hk
    exact (read_store_inside hfits hwf hlen).trans (getD_dumpBytes x s k hk)
  · intro a ha
    refine read_store_outside hfits hwf ?_
    rw [length_dumpBytes]
    omega

theorem mem_allKeys (k : Idx) : k ∈ allKeys := by
  revert k
  decide

/-- Settles O40: the registers up to X take the bytes from I on, and the list of the statement is those registers. -/
theorem loadFillsRegistersInclusive : Obligations.LoadFillsRegistersInclusive := by
  intro x s hi
  refine ⟨setPc (s.pc + 2) (loadRegs x s), guardRange_ok _ _ _ (.inr (by rw [base]; omega)), ?_, ?_, rfl, ?_⟩
  · intro k hk
    simp [hk, base]
  · intro k hk
    simp [Fin.not_le.2 hk]
  · apply unchanged_of <;> simp +contextual [mem_allKeys]

/-- Settles O41: the checked range passes the last address. -/
theorem transfersBeyondMemoryFault : Obligations.TransfersBeyondMemoryFault := by
  intro x y n s
  refine ⟨fun h => ?_, fun h => ⟨?_, ?_⟩, fun hn h => ?_⟩
  all_goals exact guardRange_fault _ s _ (by omega) (by rw [base]; omega)

/-- Settles O42: the dump stores V0 and V1 at pc + 2, where the next fetch reads. -/
theorem storedWordIsFetchedNext : Obligations.StoredWordIsFetchedNext := by
  intro x s t hwf hx hpc hi h
  obtain ⟨t', ht', hstored, -, hpc', -⟩ := dumpStoresRegistersInclusive x s hwf hi
  obtain rfl := next_inj (ht'.symm.trans h)
  have hfetch : t'.pc.toNat = base s := by
    have htwo : (2 : Word).toNat = 2 := rfl
    rw [hpc', BitVec.toNat_add, htwo, base]
    omega
  have hv0 := hstored 0 (Fin.zero_le x)
  have hv1 := hstored 1 (Fin.le_def.2 hx)
  refine ⟨_, MemoryFamily.fetch_eq_wordAt (by rw [hfetch, base]; omega), ?_⟩
  rw [wordAt_toNat, hfetch, ← hv0, ← hv1]
  rfl

end Sys2Proof.Proofs.Instructions
end

section
/-! The statements about keys, the host's events and reset (45_keys.md, 60_exceptions.md, 70_reset_and_hazards.md). -/

namespace Sys2Proof.Proofs.Events

open Sys2Proof Sys2Proof.Machine

/-! ## The key instructions -/

theorem exec_skpVx (x : Idx) (s : State) : exec (.skpVx x) s = withKey x s fun pressed => skipIf pressed s := rfl

theorem exec_sknpVx (x : Idx) (s : State) : exec (.sknpVx x) s = withKey x s fun pressed => skipIf (!pressed) s := rfl

/-- A register value in 0..15 names its slot. -/
theorem withKey_of_toNat {x k : Idx} {s : State} (h : (getV s x).toNat = k.val) (f : Bool → Result) :
    withKey x s f = f (getKey s k) := by
  obtain ⟨hlt, e⟩ | ⟨hge, -⟩ := withKey_cases x s f
  · rw [e]
    congr 2
    exact Fin.ext h
  · exact absurd k.isLt (by omega)

/-- Settles O48: both are skips on the slot's value. -/
theorem keySkipsTestTheSlot : Obligations.KeySkipsTestTheSlot := by
  intro x k s h
  rw [exec_skpVx, exec_sknpVx, withKey_of_toNat h, withKey_of_toNat h]
  exact ⟨Instructions.skipIf_spec Iff.rfl s, Instructions.skipIf_spec (by rw [Bool.not_eq_true']) s⟩

theorem withKey_of_above {x : Idx} {s : State} (h : 15 < (getV s x).toNat) (f : Bool → Result) :
    withKey x s f = .next (latch (.keyIndexRange (getV s x)) s) := by
  obtain ⟨hlt, -⟩ | ⟨-, e⟩ := withKey_cases x s f
  · omega
  · exact e

/-- Settles O49: both name their slot first. -/
theorem keyIndexAboveFifteenFaults : Obligations.KeyIndexAboveFifteenFaults := by
  intro x s h
  rw [exec_skpVx, exec_sknpVx, withKey_of_above h, withKey_of_above h]
  exact ⟨rfl, rfl⟩

/-- A pressed key below which none is pressed is the one that a key wait finds. -/
theorem lowestKey_eq_some {s : State} {k : Idx} (hk : getKey s k = true) (hlow : ∀ j, j < k → getKey s j = false) :
    lowestKey s = some k := by
  cases h : lowestKey s with
  | none => exact absurd hk (by simp [lowestKey_none h k])
  | some j =>
    obtain ⟨hj, hjlow⟩ := lowestKey_some h
    obtain hlt | rfl | hgt := lt_trichotomy j k
    · exact absurd hj (by simp [hlow j hlt])
    · rfl
    · exact absurd hk (by simp [hjlow k hgt])

theorem lowestKey_eq_none {s : State} (h : ∀ k, getKey s k = false) : lowestKey s = none := by
  cases hs : lowestKey s with
  | none => rfl
  | some k => exact absurd (lowestKey_some hs).1 (by simp [h k])

theorem exec_ldVxK_some {x k : Idx} {s : State} (h : lowestKey s = some k) :
    exec (.ldVxK x) s = .next (setPc (s.pc + 2) (setV x (BitVec.ofNat 8 k.val) (setKey k false s))) := by
  simp only [exec, execLdVxK, h]
  rfl

theorem exec_ldVxK_none {x : Idx} {s : State} (h : lowestKey s = none) : exec (.ldVxK x) s = .next s := by
  simp only [exec, execLdVxK, h]

/-- Settles O50: the key found is the pressed one below which none is pressed. -/
theorem keyWaitConsumesLowestKey : Obligations.KeyWaitConsumesLowestKey := by
  intro x k s hk hlow
  refine ⟨_, exec_ldVxK_some (lowestKey_eq_some hk hlow), ?_, ?_, ?_, rfl, ?_⟩
  · have hlt : k.val < 256 := k.isLt.trans (by decide)
    simp [Nat.mod_eq_of_lt hlt]
  · simp
  · intro j hj
    simp [hj]
  · apply unchanged_of <;> simp +contextual

/-- Settles O51: the search finds no key. -/
theorem keyWaitStallsUnchanged : Obligations.KeyWaitStallsUnchanged := fun _ _ h => exec_ldVxK_none (lowestKey_eq_none h)

/-! ## The host's events -/

/-- Settles O53: the event writes RUN, and Exit disables the two moves. -/
theorem exitRequestOnlySetsRun : Obligations.ExitRequestOnlySetsRun := fun s =>
  ⟨setRun .exit s, rfl, rfl, rfl, Stepping.move_of_exit rfl .cpu, Stepping.move_of_exit rfl .tick⟩

theorem move_resize {s : State} (hrun : s.run ≠ .exit) (w h : Nat) :
    move (.resize w h) s = .next (setScreen blankScreen s) :=
  congrArg Host.Outcome.next (KeysFamily.unlessExit_of_ne hrun _)

/-- Settles O54: outside Exit the event is the write of the blank screen. -/
theorem resizeOnlyClearsScreen : Obligations.ResizeOnlyClearsScreen := by
  intro w h s hrun
  refine ⟨_, move_resize hrun w h, getPixel_blankScreen, rfl, ?_⟩
  apply unchanged_of <;> simp

theorem move_loadProgram_fits {s : State} {bytes : List Byte} (hrun : s.run ≠ .exit) (h : bytes.length ≤ 3584) :
    move (.loadProgram bytes) s = .next (install bytes s) :=
  congrArg Host.Outcome.next ((KeysFamily.unlessExit_of_ne hrun _).trans (if_pos h))

theorem move_loadProgram_tooLong {s : State} {bytes : List Byte} (hrun : s.run ≠ .exit) (h : 3584 < bytes.length) :
    move (.loadProgram bytes) s = .next (emit .loadError s) :=
  congrArg Host.Outcome.next ((KeysFamily.unlessExit_of_ne hrun _).trans (if_neg (Nat.not_le_of_lt h)))

/-- Settles O56: outside Exit an oversize load is the event alone. -/
theorem oversizeLoadIsRejected : Obligations.OversizeLoadIsRejected := fun _ _ hrun h => move_loadProgram_tooLong hrun h

/-! ## Reset and the entry state -/

/-- An unlisted address reads as the font, and as zero above it. -/
theorem unlistedByte_eq (a : Nat) : unlistedByte a = if a < 80 then Config.font.getD a 0 else 0 := by
  split
  · rfl
  · next h => exact List.getD_eq_default _ _ (Nat.le_of_not_lt h)

/-- Settles O57: field by field. -/
theorem resetIsEntryState : Obligations.ResetIsEntryState := by
  refine ⟨rfl, ?_, rfl, rfl, ?_, rfl, rfl, getPixel_blankScreen, unlistedByte_eq, ?_, rfl, rfl, rfl⟩ <;> decide

/-- Settles O58: a load of no bytes writes each field as reset does; power-on has written KEY and OUT so. -/
theorem resetIsLoadAfterPowerOn : Obligations.ResetIsLoadAfterPowerOn := fun _ => rfl

/-- The memory of an entry state: the program at its place, the reset contents elsewhere; the font ends below the program. -/
theorem read_install {bytes : List Byte} (h : bytes.length ≤ 3584) (s : State) (a : Nat) :
    Memory.read (install bytes s).mem a =
      if a < 80 then Config.font.getD a 0
      else if 0x200 ≤ a ∧ a < 0x200 + bytes.length then bytes.getD (a - 0x200) 0 else 0 := by
  have hread := Memory.read_writeBytes (m := []) (a := Config.progBase) (vs := bytes) (by simp; omega) rfl a
  refine hread.trans ?_
  rw [Memory.read_nil, unlistedByte_eq]
  by_cases hfont : a < 80
  · rw [if_neg (by simp; omega), if_pos hfont, if_pos hfont]
  · rw [if_neg hfont, if_neg hfont]

/-- Settles O55: outside Exit a load that fits installs the program: memory as read above, the other fields as at reset. -/
theorem loadGivesEntryState : Obligations.LoadGivesEntryState := by
  intro bytes s hrun h
  obtain ⟨-, hv, -, -, hstack, -⟩ := resetIsEntryState
  exact ⟨install bytes s, move_loadProgram_fits hrun h, (Stepping.install_inv h s).memory, read_install h s, hv, rfl, rfl,
    rfl, hstack, rfl, rfl, getPixel_blankScreen, rfl, rfl, rfl, rfl⟩

end Sys2Proof.Proofs.Events
end

section
/-! The display statements (44_display.md): a draw, pixel by pixel. -/

namespace Sys2Proof.Proofs.Display

open Sys2Proof Sys2Proof.Machine

/-- Settles O45: the blank screen, the event that carries it, and the advance. -/
theorem clearTurnsEveryPixelOff : Obligations.ClearTurnsEveryPixelOff := by
  intro s
  refine ⟨setPc (s.pc + 2) (emitFrame (setScreen blankScreen s)), rfl, getPixel_blankScreen, rfl, rfl, ?_⟩
  apply unchanged_of <;> simp

/-! ## Painting a set of pixels -/

/-- From `cv` to `cv'` exactly the pixels of `P` are turned over, once each, and a hit is noted when one of them was on. -/
structure Paints (P : Fin 32 → Fin 64 → Bool) (cv cv' : Canvas) : Prop where
  pixel : ∀ r c, getPixel cv'.fb r c = (getPixel cv.fb r c ^^ P r c)
  hit : cv'.hit = true ↔ cv.hit = true ∨ ∃ r c, P r c = true ∧ getPixel cv.fb r c = true

theorem paints_none {P : Fin 32 → Fin 64 → Bool} (h : ∀ r c, P r c = false) (cv : Canvas) : Paints P cv cv := by
  constructor <;> simp [h]

/-- Painting two disjoint sets one after the other paints both: the second finds its pixels as they were. -/
theorem Paints.trans {P Q R : Fin 32 → Fin 64 → Bool} {a b c : Canvas} (hab : Paints P a b) (hbc : Paints Q b c)
    (hdisj : ∀ y x, P y x = true → Q y x = false) (hR : ∀ y x, R y x = (P y x || Q y x)) : Paints R a c where
  pixel := by
    intro y x
    rw [hbc.pixel, hab.pixel, hR, Bool.xor_assoc]
    cases hP : P y x
    · simp
    · simp [hdisj y x hP]
  hit := by
    have hkeep {y x} (hQ : Q y x = true) : getPixel b.fb y x = getPixel a.fb y x := by
      have hP : P y x = false := by
        by_contra hP
        exact absurd hQ (by simp [hdisj y x (by simpa using hP)])
      rw [hab.pixel, hP, Bool.xor_false]
    rw [hbc.hit, hab.hit, or_assoc]
    refine or_congr_right ⟨?_, ?_⟩
    · rintro (⟨y, x, hP, hon⟩ | ⟨y, x, hQ, hon⟩)
      · exact ⟨y, x, by simp [hR, hP], hon⟩
      · exact ⟨y, x, by simp [hR, hQ], hkeep hQ ▸ hon⟩
    · rintro ⟨y, x, hPQ, hon⟩
      rw [hR, Bool.or_eq_true] at hPQ
      obtain hP | hQ := hPQ
      · exact .inl ⟨y, x, hP, hon⟩
      · exact .inr ⟨y, x, hQ, (hkeep hQ).trans hon⟩

/-! ## One pixel, one row, all rows (R194, R196) -/

/-- How far column `c` stands to the right of column `x0`, around the screen. -/
def offset (x0 : Nat) (c : Fin 64) : Nat := (c.val + (64 - x0)) % 64

/-- Column offset `k` from `x0` is the column whose offset is `k`. -/
theorem eq_column_iff {x0 k : Nat} (hx : x0 < 64) (hk : k < 64) (c : Fin 64) :
    c = Fin.ofNat 64 (x0 + k) ↔ offset x0 c = k := by
  rw [Fin.ext_iff, Fin.val_ofNat, offset]
  omega

/-- The pixels of row `y` that the column offsets `ks` of sprite row `row` cover. -/
def rowCover (x0 y : Nat) (row : Byte) (ks : List Nat) (r : Fin 32) (c : Fin 64) : Bool :=
  r.val = y && ks.contains (offset x0 c) && row.getLsbD (7 - offset x0 c)

/-- One column offset of a row. -/
theorem drawPixel_paints {x0 k : Nat} (hx : x0 < 64) (hk : k < 64) (y : Fin 32) (row : Byte) (cv : Canvas) :
    Paints (rowCover x0 y row [k]) cv (drawPixel x0 y row cv k) := by
  have hcover (r c) : rowCover x0 y row [k] r c = true ↔
      row.getLsbD (7 - k) = true ∧ r = y ∧ c = Fin.ofNat 64 (x0 + k) := by
    rw [eq_column_iff hx hk, Fin.ext_iff]
    simp only [rowCover, List.contains_cons, List.contains_nil, Bool.or_false, Bool.and_eq_true,
      decide_eq_true_eq, beq_iff_eq]
    grind
  unfold drawPixel
  split
  · next hbit =>
    constructor
    · intro r c
      rw [getPixel_flipPixel]
      by_cases h : r = y ∧ c = Fin.ofNat 64 (x0 + k)
      · rw [if_pos h, (hcover r c).2 ⟨hbit, h⟩, h.1, h.2, Bool.xor_true]
      · have hclear : rowCover x0 y row [k] r c = false := Bool.eq_false_iff.2 fun hc => h ((hcover r c).1 hc).2
        rw [if_neg h, hclear, Bool.xor_false]
    · rw [Bool.or_eq_true]
      refine or_congr_right ⟨fun hon => ⟨_, _, (hcover _ _).2 ⟨hbit, rfl, rfl⟩, hon⟩, ?_⟩
      rintro ⟨r, c, hc, hon⟩
      obtain ⟨-, rfl, rfl⟩ := (hcover r c).1 hc
      exact hon
  · next hbit =>
    refine paints_none (fun r c => ?_) cv
    rw [Bool.eq_false_iff]
    exact fun h => hbit ((hcover r c).1 h).1

/-- Distinct column offsets of a row, one after the other. -/
theorem drawPixels_paints {x0 : Nat} (hx : x0 < 64) (y : Fin 32) (row : Byte) {ks : List Nat} (hks : ∀ k ∈ ks, k < 64)
    (hnodup : ks.Nodup) (cv : Canvas) : Paints (rowCover x0 y row ks) cv (ks.foldl (drawPixel x0 y row) cv) := by
  induction ks generalizing cv with
  | nil => exact paints_none (fun r c => by simp [rowCover]) cv
  | cons k ks ih =>
    obtain ⟨hk, hks⟩ := List.forall_mem_cons.1 hks
    obtain ⟨hnew, hnodup⟩ := List.nodup_cons.1 hnodup
    refine (drawPixel_paints hx hk y row cv).trans (ih hks hnodup _) (fun r c hc => ?_) (fun r c => ?_)
    · have hoffset : offset x0 c = k := by simp_all [rowCover]
      simp [rowCover, hoffset, hnew]
    · simp only [rowCover, List.contains_cons, List.contains_nil, Bool.or_false]
      grind

/-- The pixels that a whole sprite row covers, at the screen row `y`. -/
theorem rowCover_eight (x0 y : Nat) (row : Byte) (r : Fin 32) (c : Fin 64) :
    rowCover x0 y row [0, 1, 2, 3, 4, 5, 6, 7] r c =
      (r.val = y && offset x0 c < 8 && row.getLsbD (7 - offset x0 c)) := by
  have hmem : [0, 1, 2, 3, 4, 5, 6, 7].contains (offset x0 c) = decide (offset x0 c < 8) := by
    rw [Bool.eq_iff_iff]
    simp
    omega
  rw [rowCover, hmem]

/-- A sprite row is painted, or dropped where it stands beyond the screen and covers no pixel. -/
theorem drawRow_paints {x0 : Nat} (hx : x0 < 64) (y : Nat) (row : Byte) (cv : Canvas) :
    Paints (rowCover x0 y row [0, 1, 2, 3, 4, 5, 6, 7]) cv (drawRow x0 y row cv) := by
  unfold drawRow
  split
  · next hy => exact drawPixels_paints hx ⟨y, hy⟩ row (by decide) (by decide) cv
  · next hy =>
    refine paints_none (fun r c => ?_) cv
    have hne : r.val ≠ y := by omega
    simp [rowCover, hne]

/-- The pixels that the sprite rows `rows` cover, from the screen row `y` down. -/
def rowsCover (x0 y : Nat) (rows : List Byte) (r : Fin 32) (c : Fin 64) : Bool :=
  y ≤ r.val && r.val - y < rows.length && offset x0 c < 8 && (rows.getD (r.val - y) 0).getLsbD (7 - offset x0 c)

/-- The first sprite row covers its part of screen row `y`, the others what they cover from the next screen row down. -/
theorem rowsCover_cons (x0 y : Nat) (row : Byte) (rows : List Byte) (r : Fin 32) (c : Fin 64) :
    rowsCover x0 y (row :: rows) r c =
      (rowCover x0 y row [0, 1, 2, 3, 4, 5, 6, 7] r c || rowsCover x0 (y + 1) rows r c) := by
  rw [rowCover_eight, rowsCover, rowsCover]
  obtain hlt | heq | hgt := Nat.lt_trichotomy r.val y
  · have hle : ¬ y ≤ r.val := by omega
    have hle' : ¬ y + 1 ≤ r.val := by omega
    have hne : r.val ≠ y := by omega
    simp [hle, hle', hne]
  · simp [heq]
  · obtain ⟨d, hd⟩ := Nat.exists_eq_add_of_lt hgt
    have hsub : y + d + 1 - y = d + 1 := by omega
    have hsub' : y + d + 1 - (y + 1) = d := by omega
    have hle : y ≤ y + d + 1 := by omega
    have hne : y + d + 1 ≠ y := by omega
    simp [hd, hsub, hsub', hle, hne]

theorem drawRows_paints {x0 : Nat} (hx : x0 < 64) (y : Nat) (rows : List Byte) (cv : Canvas) :
    Paints (rowsCover x0 y rows) cv (drawRows x0 y rows cv) := by
  induction rows generalizing y cv with
  | nil => exact paints_none (fun r c => by simp [rowsCover]) cv
  | cons row rows ih =>
    refine (drawRow_paints hx y row cv).trans (ih (y + 1) _) (fun r c hc => ?_) (rowsCover_cons x0 y row rows)
    have hy : r.val = y := by
      simp only [rowCover, Bool.and_eq_true, decide_eq_true_eq] at hc
      exact hc.1.1
    simp [rowsCover, hy]

/-! ## The draw -/

/-- The rows read from memory at I cover the pixels that the spec's predicate names. -/
theorem rowsCover_readBytes (s : State) (x y : Idx) (n : Nat) (r : Fin 32) (c : Fin 64) :
    rowsCover (originX (getV s x)) (originY (getV s y)) (Memory.readBytes s.mem (base s) n) r c =
      spriteCovers s x y n r c := by
  rw [rowsCover, spriteCovers, originX_eq, originY_eq, Memory.length_readBytes]
  by_cases hn : r.val - (getV s y).toNat % 32 < n
  · rw [List.getD_eq_getElem _ _ (by rwa [Memory.length_readBytes]), Memory.getElem_readBytes]
    rfl
  · simp [hn]

theorem blit_paints (x y : Idx) (n : Nat) (s : State) : Paints (spriteCovers s x y n) ⟨s.fb, false⟩ (blit x y n s) := by
  have hx : originX (getV s x) < 64 := originX_eq (getV s x) ▸ Nat.mod_lt _ (by decide)
  have h := drawRows_paints hx (originY (getV s y)) (Memory.readBytes s.mem (base s) n) ⟨s.fb, false⟩
  rwa [funext₂ (rowsCover_readBytes s x y n)] at h

/-- The state after a draw within memory. -/
theorem exec_drawVxVyN {x y : Idx} {n : Fin 16} {s : State} (h : n.val = 0 ∨ s.i.toNat + n.val ≤ 4096) :
    exec (.drawVxVyN x y n) s = .next (setPc (s.pc + 2)
      (emitFrame (setV regF (hitFlag (blit x y n.val s).hit) (setScreen (blit x y n.val s).fb s)))) :=
  guardRange_ok _ _ _ h

theorem hitFlag_cases (hit : Bool) : (hitFlag hit = 1 ∧ hit = true) ∨ (hitFlag hit = 0 ∧ hit = false) := by
  revert hit
  decide

/-- Settles O46: the draw paints what the sprite covers, and its flag tells of a hit. -/
theorem drawXorsTheSprite : Obligations.DrawXorsTheSprite := by
  intro x y n s h
  have hpaints := blit_paints x y n.val s
  refine ⟨_, exec_drawVxVyN h, hpaints.pixel, ?_, rfl, rfl, ?_⟩
  · have hhit : (blit x y n.val s).hit = true ↔
        ∃ r c, spriteCovers s x y n.val r c = true ∧ getPixel s.fb r c = true := by simpa using hpaints.hit
    rw [getV_setPc, getV_emitFrame, getV_setV, if_pos (show (15 : Idx) = regF from rfl)]
    obtain ⟨hflag, hb⟩ | ⟨hflag, hb⟩ := hitFlag_cases (blit x y n.val s).hit
    · exact .inl ⟨hflag, hhit.1 hb⟩
    · refine .inr ⟨hflag, fun r c hc => ?_⟩
      by_contra hon
      exact absurd (hhit.2 ⟨r, c, hc, by simpa using hon⟩) (by simp [hb])
  · apply unchanged_of <;> simp +contextual [regF]

/-- Where the registers, memory and I that a sprite is drawn from stay, it covers the same pixels. -/
theorem spriteCovers_congr {parts : List Part} {regs : List Idx} {s t : State} {x y : Idx} (h : Unchanged parts regs s t)
    (hmem : Part.memory ∉ parts) (hi : Part.index ∉ parts) (hx : x ∉ regs) (hy : y ∉ regs) (n : Nat) :
    spriteCovers t x y n = spriteCovers s x y n := by
  funext r c
  simp only [spriteCovers, h.registers x hx, h.registers y hy, h.index hi, h.memory hmem]

/-- Settles O47: the second draw covers the pixels of the first, finds each turned over, and turns it back. -/
theorem drawTwiceRestoresScreen : Obligations.DrawTwiceRestoresScreen := by
  intro x y n s t u hx hy h ht hu
  obtain ⟨t', ht', hpixel, -, -, -, hframe⟩ := drawXorsTheSprite x y n s h
  obtain rfl := next_inj (ht'.symm.trans ht)
  have hcovers : spriteCovers t' x y n.val = spriteCovers s x y n.val :=
    spriteCovers_congr hframe (by decide) (by decide) (by simpa using hx) (by simpa using hy) n.val
  have hrange : n.val = 0 ∨ t'.i.toNat + n.val ≤ 4096 := by rwa [hframe.index (by decide)]
  obtain ⟨u', hu', hpixel', hflag, -⟩ := drawXorsTheSprite x y n t' hrange
  obtain rfl := next_inj (hu'.symm.trans hu)
  rw [hcovers] at hpixel' hflag
  have hturned {r c} (hc : spriteCovers s x y n.val r c = true) : getPixel t'.fb r c = !getPixel s.fb r c := by
    rw [hpixel, hc, Bool.xor_true]
  constructor
  · apply framebuffer_ext
    intro r c
    rw [hpixel', hpixel, Bool.xor_assoc, Bool.xor_self, Bool.xor_false]
  · obtain ⟨hone, r, c, hc, hon⟩ | ⟨hzero, hoff⟩ := hflag
    · exact ⟨fun _ => ⟨r, c, hc, by simpa [hturned hc] using hon⟩, fun _ => hone⟩
    · refine ⟨fun hone => absurd (hzero.symm.trans hone) (by decide), ?_⟩
      rintro ⟨r, c, hc, hsoff⟩
      exact absurd (hoff r c hc) (by simp [hturned hc, hsoff])

end Sys2Proof.Proofs.Display
end
